-- ==== Sys2Proof/Word.lean ====
section
/-! DEFINITION. The machine's one data width (spec/00_scope.md R7): a word is 32 bits. A sample, a
coefficient, a constant, a command word and a data word are each one `Word`. -/

namespace Sys2Proof

/-- A word: 32 bits, bit 0 the least significant (R6, R7). -/
abbrev Word := BitVec 32

end Sys2Proof
end

