-- ==== Sys2Proof/Syntax.lean ====
section
/-! DEFINITION. The nine commands of spec/30_encoding.md R80 as syntax, with the operands of R82. The data
word of WRB is not part of the command word (R81, R90): it stands in the machine's command latch. -/

namespace Sys2Proof

/-- The two families of lines (R9, R23, R82): `rLine` is axis code 0 (column index fixed), `cLine` is axis
code 1 (row index fixed). -/
inductive Axis where
  | rLine
  | cLine
  deriving DecidableEq, Repr

/-- The axis bit of R82. -/
def Axis.code : Axis → BitVec 1
  | .rLine => 0
  | .cLine => 1

/-- The axis an axis bit selects (R82). -/
def Axis.ofBit : Bool → Axis
  | false => .rLine
  | true => .cLine

/-- A decoded command: one constructor per row of the opcode table (R80, R83). -/
inductive Instr where
  /-- WRB idx: write one word of the block store (R221). -/
  | wrb (idx : BitVec 6)
  /-- RDB idx: read one word of the block store (R222). -/
  | rdb (idx : BitVec 6)
  /-- RDC k: read one word of the constant ROM (R146). -/
  | rdc (k : BitVec 4)
  /-- FDCT1 axis, n: forward transform of one line (R165). -/
  | fdct1 (axis : Axis) (n : BitVec 3)
  /-- IDCT1 axis, n: inverse transform of one line (R185). -/
  | idct1 (axis : Axis) (n : BitVec 3)
  /-- FDCT2: forward 2D transform of the block (R200). -/
  | fdct2
  /-- IDCT2: inverse 2D transform of the block (R201). -/
  | idct2
  /-- RDST: read the status register (R223). -/
  | rdst
  /-- NOP (R220). -/
  | nop
  deriving DecidableEq, Repr

end Sys2Proof
end

