-- ==== Sys2Proof/WellFormed.lean ====
section
/-! DEFINITION. Which commands have an encoding (spec/30_encoding.md R82, R83): every operand value its field
can hold, but for the ROM index of RDC, which is at most 12. -/

namespace Sys2Proof

/-- R82, R83: `k <= 12` is the one extra condition of the opcode map; the other fields have no illegal value. -/
def Instr.wf : Instr → Bool
  | .wrb _ => true
  | .rdb _ => true
  | .rdc k => k.toNat ≤ 12
  | .fdct1 _ _ => true
  | .idct1 _ _ => true
  | .fdct2 => true
  | .idct2 => true
  | .rdst => true
  | .nop => true

end Sys2Proof
end

