-- ==== Sys2Proof/Decode.lean ====
section
/-! DEFINITION. Command words: the decoder of spec/30_encoding.md R84, total on all 2^32 words and rejecting by
name, the encoder written from the formats of R81, and the opcode map of R83. -/

namespace Sys2Proof

/-- Why a command word is illegal (R85). The machine treats the three alike (R240, R244); the names are for
the reader of a decode result. -/
inductive Illegal where
  /-- Opcode 0x0 or 0xA to 0xF. -/
  | reservedOpcode
  /-- A legal opcode with a 1 in a must-be-zero bit of its format. -/
  | mustBeZeroBit
  /-- RDC with k = 13, 14 or 15. -/
  | reservedRomSlot
  deriving DecidableEq, Repr

/-- `w[31:28]`, the opcode (R81). -/
def opField (w : Word) : BitVec 4 := w.extractLsb' 28 4

/-- `w[5:0]`, the block index of format X (R82). -/
def idxField (w : Word) : BitVec 6 := w.extractLsb' 0 6

/-- `w[3:0]`, the ROM index of format K (R82). -/
def kField (w : Word) : BitVec 4 := w.extractLsb' 0 4

/-- `w[3]`, the axis of format L (R82). -/
def axisField (w : Word) : Axis := Axis.ofBit (w.getLsbD 3)

/-- `w[2:0]`, the line number of format L (R82). -/
def nField (w : Word) : BitVec 3 := w.extractLsb' 0 3

/-- The must-be-zero bits of format X: `w[27:6]` (R81). -/
def zeroX (w : Word) : Bool := w.extractLsb' 6 22 == 0

/-- The must-be-zero bits of formats K and L: `w[27:4]` (R81). -/
def zeroKL (w : Word) : Bool := w.extractLsb' 4 24 == 0

/-- The must-be-zero bits of format Z: `w[27:0]` (R81). -/
def zeroZ (w : Word) : Bool := w.extractLsb' 0 28 == 0

/-- A command whose must-be-zero bits are zero, or the refusal of the word that has a 1 there (R85). -/
def whenZero (zero : Bool) (i : Instr) : Except Illegal Instr :=
  if zero then .ok i else .error .mustBeZeroBit

/-- RDC: the must-be-zero bits, then `k <= 12` (R84, R145). -/
def decodeRdc (w : Word) : Except Illegal Instr :=
  if !zeroKL w then .error .mustBeZeroBit
  else if (kField w).toNat ≤ 12 then .ok (.rdc (kField w)) else .error .reservedRomSlot

/-- R84: the decoder. It reads `cmd_word` alone. -/
def decode (w : Word) : Except Illegal Instr :=
  if opField w = 0x1 then whenZero (zeroX w) (.wrb (idxField w))
  else if opField w = 0x2 then whenZero (zeroX w) (.rdb (idxField w))
  else if opField w = 0x3 then decodeRdc w
  else if opField w = 0x4 then whenZero (zeroKL w) (.fdct1 (axisField w) (nField w))
  else if opField w = 0x5 then whenZero (zeroKL w) (.idct1 (axisField w) (nField w))
  else if opField w = 0x6 then whenZero (zeroZ w) .fdct2
  else if opField w = 0x7 then whenZero (zeroZ w) .idct2
  else if opField w = 0x8 then whenZero (zeroZ w) .rdst
  else if opField w = 0x9 then whenZero (zeroZ w) .nop
  else .error .reservedOpcode

/-- Whether `decode` gives a command (R85: a word is illegal iff it does not). -/
def isLegal (w : Word) : Bool :=
  match decode w with
  | .ok _ => true
  | .error _ => false

/-- The command word of a command, from the formats of R81 and the opcodes of R83. -/
def encode : Instr → Word
  | .wrb idx => 0x1#4 ++ 0#22 ++ idx
  | .rdb idx => 0x2#4 ++ 0#22 ++ idx
  | .rdc k => 0x3#4 ++ 0#24 ++ k
  | .fdct1 axis n => 0x4#4 ++ 0#24 ++ axis.code ++ n
  | .idct1 axis n => 0x5#4 ++ 0#24 ++ axis.code ++ n
  | .fdct2 => 0x6#4 ++ 0#28
  | .idct2 => 0x7#4 ++ 0#28
  | .rdst => 0x8#4 ++ 0#28
  | .nop => 0x9#4 ++ 0#28

/-- One row of the opcode map of R83: `(w & mask) == match` and, for RDC, `k <= 12`. -/
structure OpcodeRow where
  mnemonic : String
  value : Word
  mask : Word
  kAtMost12 : Bool
  deriving DecidableEq, Repr

/-- Whether a word is the command of a row (R83). -/
def OpcodeRow.selects (r : OpcodeRow) (w : Word) : Bool :=
  (w &&& r.mask) == r.value && (!r.kAtMost12 || (w &&& 0xF#32).toNat ≤ 12)

/-- The opcode map of R83, as spec/opcode_table.json has it. -/
def opcodeMap : List OpcodeRow :=
  [ ⟨"WRB", 0x10000000, 0xFFFFFFC0, false⟩,
    ⟨"RDB", 0x20000000, 0xFFFFFFC0, false⟩,
    ⟨"RDC", 0x30000000, 0xFFFFFFF0, true⟩,
    ⟨"FDCT1", 0x40000000, 0xFFFFFFF0, false⟩,
    ⟨"IDCT1", 0x50000000, 0xFFFFFFF0, false⟩,
    ⟨"FDCT2", 0x60000000, 0xFFFFFFFF, false⟩,
    ⟨"IDCT2", 0x70000000, 0xFFFFFFFF, false⟩,
    ⟨"RDST", 0x80000000, 0xFFFFFFFF, false⟩,
    ⟨"NOP", 0x90000000, 0xFFFFFFFF, false⟩ ]

/-- The mnemonic of a command (R80). -/
def Instr.mnemonic : Instr → String
  | .wrb _ => "WRB"
  | .rdb _ => "RDB"
  | .rdc _ => "RDC"
  | .fdct1 _ _ => "FDCT1"
  | .idct1 _ _ => "IDCT1"
  | .fdct2 => "FDCT2"
  | .idct2 => "IDCT2"
  | .rdst => "RDST"
  | .nop => "NOP"

/-- What the decoder reads from a command word given as a number (the opcode table's numbering: bit 0 is the
least significant bit of the one 32-bit word). A number of more than 32 bits is no command word. -/
def decodeTableWord (nbits w : Nat) : Option Instr :=
  if nbits ≤ 32 ∧ w < 2 ^ 32 then
    match decode (BitVec.ofNat 32 w) with
    | .ok i => some i
    | .error _ => none
  else none

end Sys2Proof
end

