-- ==== Sys2Proof/Config.lean ====
section
/-! DEFINITION. What an implementation fixes and what the spec leaves open: the latencies LAT_* (R5, R277)
and the free values (R31, R32, R117). -/

namespace Sys2Proof

/-- The open timing parameters of R5 and R277: clock cycles from the acceptance of a command to the first
cycle with `rsp_valid = 1`. FDCT1 and IDCT1 share LAT_1D; FDCT2 and IDCT2 share LAT_2D. Log 7. -/
structure Latencies where
  wrb : Nat
  rdb : Nat
  rdc : Nat
  rdst : Nat
  nop : Nat
  line : Nat
  block : Nat
  illegal : Nat
  deriving DecidableEq, Repr

/-- R277: each latency is a finite positive integer. -/
def Latencies.positive (l : Latencies) : Bool :=
  1 ≤ l.wrb && 1 ≤ l.rdb && 1 ≤ l.rdc && 1 ≤ l.rdst && 1 ≤ l.nop && 1 ≤ l.line && 1 ≤ l.block &&
    1 ≤ l.illegal

/-- The default the spec names for a simulator: 1 each (92_eei_decisions.md, open parameters). Log 7. -/
def Latencies.simulator : Latencies :=
  { wrb := 1, rdb := 1, rdc := 1, rdst := 1, nop := 1, line := 1, block := 1, illegal := 1 }

/-- The free values. The n-th value the machine draws; no body, so nothing can be proved of its bits. It
gives the NaN patterns of R117 (log 5) and what BLK and TMP hold after a `rst` edge, R32 (log 4), for every core of a
system (log 20). -/
opaque Config.freeWord : Nat → Word

end Sys2Proof
end

