-- ==== Sys2Proof/Machine/State.lean ====
section
/-! DEFINITION. The state of one DCT8 core (spec/10_state.md R20) as plain data, what it holds right after reset
(R32), and the reasons a step could stop. -/

namespace Sys2Proof.Machine

/-- A command as the port samples it: the command word and the data word (20_memory.md R52). -/
structure Cmd where
  word : Word
  data : Word
  deriving DecidableEq, Repr

/-- The response codes of 20_memory.md R56; codes 2 and 3 are never generated. -/
inductive RspCode where
  | ok
  | illegal
  deriving DecidableEq, Repr

/-- The 2-bit value on `rsp_code` (R56). -/
def RspCode.bits : RspCode → BitVec 2
  | .ok => 0
  | .illegal => 1

/-- One response: the pair (code, data) of R56. -/
structure Response where
  code : RspCode
  data : Word
  deriving DecidableEq, Repr

/-- The port's handshake state (10_state.md R20; 20_memory.md R53, R56, R57). Idle, or busy from the edge
that accepts a command to the edge that takes its response. -/
inductive Port where
  | idle
  /-- `wait` cycles are left before `rsp_valid` becomes 1; at 0 the response is presented. -/
  | busy (wait : Nat) (rsp : Response)
  deriving DecidableEq, Repr

/-- The two kinds of 2D command of 10_state.md R27. -/
inductive SeqKind where
  | fwd2
  | inv2
  deriving DecidableEq, Repr

/-- The sequencer SEQ of R27. -/
inductive Seq where
  | idle
  | run (kind : SeqKind) (t : BitVec 4)
  deriving DecidableEq, Repr

/-- The temporaries of a forward line transform (R29; 42_forward_1d.md R160 to R162). -/
structure FwdTemps (α : Type) where
  v : Vector α 8
  s : Vector α 4
  m : Vector α 4
  ss1 : α
  ss2 : α
  mm1 : α
  mm2 : α
  deriving DecidableEq, Repr

/-- The temporaries of an inverse line transform (R29; 43_inverse_1d.md R180 to R183). -/
structure InvTemps (α : Type) where
  X : Vector α 8
  s1 : α
  s2 : α
  m1 : α
  m2 : α
  ss1 : α
  mm1 : α
  ss2 : α
  mm2 : α
  k1 : α
  k2 : α
  k3 : α
  k4 : α
  deriving DecidableEq, Repr

/-- TMP, the line temporaries of the 1D datapath (R20, R29). -/
structure Tmp where
  fwd : FwdTemps Word
  inv : InvTemps Word
  deriving DecidableEq, Repr

/-- The host's signals sampled at one rising clock edge (20_memory.md R51). -/
structure EdgeIn where
  rst : Bool
  cmdValid : Bool
  cmdWord : Word
  cmdData : Word
  rspReady : Bool
  deriving DecidableEq, Repr

/-- The state of one core, and beside it what a run needs to be plain data. -/
structure State where
  /-- BLK, the block store (R21). -/
  blk : Vector Word 64
  /-- STATUS (R25): bit 0 is ILL, bits 31:1 are hardwired 0. -/
  status : Word
  /-- SEQ, the sequencer (R27). -/
  seq : Seq
  /-- TMP, the line temporaries (R29). -/
  tmp : Tmp
  /-- The command accepted last: the one being executed while the port is busy (R20, R52). -/
  cmd : Cmd
  /-- The port's handshake state (R53, R56, R57). -/
  port : Port
  /-- The model's own: the responses taken since reset, in order, the record of the run (R58). Log 12. -/
  taken : List Response
  /-- The model's own: the host's signals at the coming clock edges, the next one first (R51). Log 1. -/
  inputs : List EdgeIn
  /-- The model's own: how many free values have been drawn (R31, R117). Log 5, log 17. -/
  draws : Nat
  /-- The open latencies (R5, R277), which no step changes. Log 7. -/
  lat : Latencies
  deriving DecidableEq, Repr

/-- Forward temporaries that all hold one word. -/
def FwdTemps.const (w : Word) : FwdTemps Word :=
  { v := Vector.replicate 8 w, s := Vector.replicate 4 w, m := Vector.replicate 4 w,
    ss1 := w, ss2 := w, mm1 := w, mm2 := w }

/-- Inverse temporaries that all hold one word. -/
def InvTemps.const (w : Word) : InvTemps Word :=
  { X := Vector.replicate 8 w, s1 := w, s2 := w, m1 := w, m2 := w, ss1 := w, mm1 := w, ss2 := w,
    mm2 := w, k1 := w, k2 := w, k3 := w, k4 := w }

/-- The machine right after reset (R32): STATUS 0, SEQ idle, port idle with no response pending. R32 leaves BLK
and TMP unspecified: DESIGN CHOICE zero (log 3, log 6; unsafe). DESIGN CHOICE too: the command latch (log 8),
the empty lists (log 1, log 12), the counter (log 17), latencies of 1 (log 7). -/
def State.reset : State :=
  { blk := Vector.replicate 64 0
    status := 0
    seq := .idle
    tmp := { fwd := FwdTemps.const 0, inv := InvTemps.const 0 }
    cmd := { word := 0, data := 0 }
    port := .idle
    taken := []
    inputs := []
    draws := 0
    lat := Latencies.simulator }

/-- Why the machine would stop with a fault. Nothing raises one: IllegalCommand is recorded in STATUS and the
core goes on (60_exceptions.md R240, R254). Log 18, safe. -/
inductive Fault where
  deriving DecidableEq, Repr

/-- Why the model would refuse an instruction. -/
inductive Refusal where
  /-- Raised by an arm of `exec` for an instruction with no meaning yet; no arm does so now. Safe. -/
  | notModelled (mnemonic : String)
  deriving DecidableEq, Repr

end Sys2Proof.Machine
end

