-- ==== Sys2Proof/Machine/Flags.lean ====
section
/-! DEFINITION. The status register (spec/10_state.md R25). The core has no condition codes and no arithmetic
flags (R28, 40_numerics.md R118), so ILL is the only flag there is. -/

namespace Sys2Proof.Machine

/-- STATUS.ILL, bit 0 (R25). -/
def State.ill (s : State) : Bool := s.status.getLsbD 0

/-- The STATUS register as RDST reads it: 31 zero bits and ILL (R25, R223). -/
def State.statusWord (s : State) : Word := if s.ill then 1 else 0

/-- `STATUS.ILL <- 1` (R240); the other 31 bits keep what they hold. -/
def State.setIll (s : State) : State := { s with status := s.status ||| 1#32 }

/-- STATUS[31:1] reads as hardwired 0 (R25). -/
def State.reservedStatusZero (s : State) : Bool := s.status.extractLsb' 1 31 == 0

end Sys2Proof.Machine
end

