-- ==== Sys2Proof/Machine/Operands.lean ====
section
/-! DEFINITION. The three ways of forming a block-store address (spec/45_block_access_and_system.md R224) and
the accesses through them: direct, a line gathered or scattered, and the lines of a 2D command's schedule. -/

namespace Sys2Proof.Machine

/-- `IDX(c, r) = 8*c + r`, the concatenation of two 3-bit coordinates (R22, R122). -/
def blockIdx (c r : BitVec 3) : BitVec 6 := c ++ r

/-- The column index of an element, `i[5:3]` (R22). -/
def colOf (i : BitVec 6) : BitVec 3 := i.extractLsb' 3 3

/-- The row index of an element, `i[2:0]` (R22). -/
def rowOf (i : BitVec 6) : BitVec 3 := i.extractLsb' 0 3

/-- `LINE(axis, n)[j]` (R23). -/
def lineIdx (axis : Axis) (n j : BitVec 3) : BitVec 6 :=
  match axis with
  | .rLine => blockIdx n j
  | .cLine => blockIdx j n

/-- The coordinate that is fixed along a line of the axis: which line of the axis an element is on (R23). -/
def lineOf (axis : Axis) (i : BitVec 6) : BitVec 3 :=
  match axis with
  | .rLine => colOf i
  | .cLine => rowOf i

/-- The coordinate that varies along a line of the axis: the element's position on it (R23). -/
def posOf (axis : Axis) (i : BitVec 6) : BitVec 3 :=
  match axis with
  | .rLine => rowOf i
  | .cLine => colOf i

/-- `BLK[i]` (R8, R21). -/
def readBlk {α : Type} (b : Vector α 64) (i : BitVec 6) : α := b[i.toNat]'i.isLt

/-- `BLK[i] <- w` (R8, R21). -/
def writeBlk {α : Type} (b : Vector α 64) (i : BitVec 6) (w : α) : Vector α 64 :=
  b.set i.toNat w i.isLt

/-- Element `j` of a line of eight values. -/
def elem {α : Type} (v : Vector α 8) (j : BitVec 3) : α := v[j.toNat]'j.isLt

/-- The eight positions in ascending order. -/
def positions : List (BitVec 3) := [0, 1, 2, 3, 4, 5, 6, 7]

/-- `for j in 0..7: v[j] <- BLK[L[j]]` (R165, R185). -/
def gather {α : Type} (b : Vector α 64) (axis : Axis) (n : BitVec 3) : Vector α 8 :=
  #v[readBlk b (lineIdx axis n 0), readBlk b (lineIdx axis n 1), readBlk b (lineIdx axis n 2),
     readBlk b (lineIdx axis n 3), readBlk b (lineIdx axis n 4), readBlk b (lineIdx axis n 5),
     readBlk b (lineIdx axis n 6), readBlk b (lineIdx axis n 7)]

/-- `for j in 0..7: BLK[L[j]] <- o[j]` (R165, R185). -/
def scatter {α : Type} (b : Vector α 64) (axis : Axis) (n : BitVec 3) (o : Vector α 8) :
    Vector α 64 :=
  positions.foldl (fun b j => writeBlk b (lineIdx axis n j) (elem o j)) b

/-- One line transformed in place by `f`: all eight reads, `f`, all eight writes (R165, R185). -/
def transformLine {α : Type} (f : Vector α 8 → Vector α 8) (axis : Axis) (n : BitVec 3)
    (b : Vector α 64) : Vector α 64 :=
  scatter b axis n (f (gather b axis n))

/-- The line number of sequencer step `t`: `n = t[2:0]` (R27). -/
def seqLine (t : BitVec 4) : BitVec 3 := t.extractLsb' 0 3

/-- The axis of sequencer step `t`: `t[3]` for FWD2, `1 - t[3]` for INV2 (R27). -/
def seqAxis (kind : SeqKind) (t : BitVec 4) : Axis :=
  match kind with
  | .fwd2 => Axis.ofBit (t.getLsbD 3)
  | .inv2 => Axis.ofBit (!t.getLsbD 3)

end Sys2Proof.Machine
end

