-- ==== Sys2Proof/Machine/Ops.lean ====
section
/-! DEFINITION. The shared operations of the command shell: the response (spec/20_memory.md R56), the one
exception (60_exceptions.md R240), the port while it is busy (R53, R57) and reset (70_reset_and_hazards.md
R270 to R272). There is no return from the exception: nothing was entered (R246). -/

namespace Sys2Proof.Machine

/-- The outcome of a step of this machine. -/
abbrev StepResult := Host.Outcome State Fault Refusal

/-- `respond(code, data)` of a command whose latency is `latency` (R8, R56, R277): the port is busy, and the
response is presented `latency` cycles after the acceptance edge, which is the edge that calls this. -/
def respond (latency : Nat) (code : RspCode) (data : Word) (s : State) : State :=
  { s with port := .busy (latency - 1) { code := code, data := data } }

/-- `raise IllegalCommand` (R240): `STATUS.ILL <- 1; respond(1, 0)`, nothing else. -/
def raiseIllegalCommand (s : State) : State :=
  respond s.lat.illegal .illegal 0 s.setIll

/-- The response is taken: the port is idle again (R53), and the run's record grows by it (R58). -/
def takeResponse (r : Response) (s : State) : State :=
  { s with port := .idle, taken := s.taken ++ [r] }

/-- One edge of the busy port with `rst = 0` (R53, R57): count down to the response; then hold it until the
host takes it. Nothing else changes. -/
def busyEdge (rspReady : Bool) (wait : Nat) (r : Response) (s : State) : State :=
  match wait with
  | w + 1 => { s with port := .busy w r }
  | 0 => if rspReady then takeResponse r s else s

/-- Eight free values, from the `k`-th on. -/
def freeLine (k : Nat) : Vector Word 8 :=
  #v[Config.freeWord k, Config.freeWord (k + 1), Config.freeWord (k + 2), Config.freeWord (k + 3),
     Config.freeWord (k + 4), Config.freeWord (k + 5), Config.freeWord (k + 6), Config.freeWord (k + 7)]

/-- Four free values, from the `k`-th on. -/
def freeQuad (k : Nat) : Vector Word 4 :=
  #v[Config.freeWord k, Config.freeWord (k + 1), Config.freeWord (k + 2), Config.freeWord (k + 3)]

/-- What BLK holds after a reset: 64 free values (R32, R271, R272). Log 4. -/
def freeBlk (k : Nat) : Vector Word 64 := Vector.ofFn fun i : Fin 64 => Config.freeWord (k + i.val)

/-- What TMP holds after a reset: 40 free values (R32). Log 4. -/
def freeTmp (k : Nat) : Tmp :=
  { fwd :=
      { v := freeLine k, s := freeQuad (k + 8), m := freeQuad (k + 12)
        ss1 := Config.freeWord (k + 16), ss2 := Config.freeWord (k + 17)
        mm1 := Config.freeWord (k + 18), mm2 := Config.freeWord (k + 19) }
    inv :=
      { X := freeLine (k + 20)
        s1 := Config.freeWord (k + 28), s2 := Config.freeWord (k + 29)
        m1 := Config.freeWord (k + 30), m2 := Config.freeWord (k + 31)
        ss1 := Config.freeWord (k + 32), mm1 := Config.freeWord (k + 33)
        ss2 := Config.freeWord (k + 34), mm2 := Config.freeWord (k + 35)
        k1 := Config.freeWord (k + 36), k2 := Config.freeWord (k + 37)
        k3 := Config.freeWord (k + 38), k4 := Config.freeWord (k + 39) } }

/-- An edge with `rst = 1` (R270 to R272): every piece of state takes the value of R32's table, BLK and TMP free
values; a command in flight is abandoned and its response lost. A new run begins (R58). That two cores with equal
counters get the same free values is the model's own (log 20). -/
def resetEdge (s : State) : State :=
  { s with
    blk := freeBlk s.draws
    status := 0
    seq := .idle
    tmp := freeTmp (s.draws + 64)
    cmd := { word := 0, data := 0 }
    port := .idle
    taken := []
    draws := s.draws + 104 }

end Sys2Proof.Machine
end

