-- ==== Sys2Proof/Machine/Rom.lean ====
section
/-! DEFINITION. The basis-constant ROM of spec/41_basis_rom.md R140, R141: a constant of the model, not state
(10_state.md R24). -/

namespace Sys2Proof.Machine

/-- The thirteen defined slots (R141): a1 b1 c1 d1 a2 b2, K, then a1K b1K c1K d1K a2K b2K. -/
def romTable : Vector Word 13 :=
  #v[0x3FB18A86, 0x3F968317, 0x3F49234E, 0x3E8D42AF, 0x3FA73D75, 0x3F0A8BD4,
     0x3E000000,
     0x3E318A86, 0x3E168317, 0x3DC9234E, 0x3D0D42AF, 0x3E273D75, 0x3D8A8BD4]

/-- A slot by its 4-bit index; the reserved slots 13, 14, 15 hold nothing (R145). -/
def romSlot (k : BitVec 4) : Option Word := romTable[k.toNat]?

end Sys2Proof.Machine
end

