-- ==== Sys2Proof/Machine/Access.lean ====
section
/-! DEFINITION. The access and system commands: WRB, RDB, RDST, NOP
(spec/45_block_access_and_system.md R220 to R223) and RDC (41_basis_rom.md R146). -/

namespace Sys2Proof.Machine

/-- WRB idx, word (R221): the word is the data word of the command being executed, bit for bit (R82). -/
def execWrb (idx : BitVec 6) (s : State) : StepResult :=
  .next (respond s.lat.wrb .ok 0 { s with blk := writeBlk s.blk idx s.cmd.data })

/-- RDB idx (R222). -/
def execRdb (idx : BitVec 6) (s : State) : StepResult :=
  .next (respond s.lat.rdb .ok (readBlk s.blk idx) s)

/-- RDC k (R146). A reserved slot is no RDC but an illegal word (R145): its execution is the exception
(log 10). -/
def execRdc (k : BitVec 4) (s : State) : StepResult :=
  match romSlot k with
  | some w => .next (respond s.lat.rdc .ok w s)
  | none => .next (raiseIllegalCommand s)

/-- RDST (R223): `respond(0, {31 zero bits, STATUS.ILL})`. -/
def execRdst (s : State) : StepResult :=
  .next (respond s.lat.rdst .ok s.statusWord s)

/-- NOP (R220): the response and nothing else. -/
def execNop (s : State) : StepResult :=
  .next (respond s.lat.nop .ok 0 s)

end Sys2Proof.Machine
end

