-- ==== Sys2Proof/Machine/Numerics.lean ====
section
/-! DEFINITION. The binary32 arithmetic of spec/40_numerics.md: the format (R110), rounding (R111), fadd, fsub,
fmul, fneg (R112 to R115) and the free NaN patterns (R117). Exact values are counted in units of 2^-149, the
smallest subnormal, so that every finite word is an integer number of units (log 13). -/

namespace Sys2Proof.Machine

/-- `s = w[31]` (R110). -/
def signBit (w : Word) : Bool := w.getLsbD 31

/-- `e = w[30:23]`, the biased exponent (R110). -/
def expField (w : Word) : Nat := (w.extractLsb' 23 8).toNat

/-- `f = w[22:0]`, the fraction (R110). -/
def fracField (w : Word) : Nat := (w.extractLsb' 0 23).toNat

/-- `e = 255`, `f != 0` (R110). -/
def isNaN (w : Word) : Bool := expField w == 255 && fracField w != 0

/-- `e = 255`, `f = 0` (R110). -/
def isInf (w : Word) : Bool := expField w == 255 && fracField w == 0

/-- `e = 0`, `f = 0` (R110). -/
def isZero (w : Word) : Bool := expField w == 0 && fracField w == 0

/-- Zero, subnormal or normal (R110). -/
def isFinite (w : Word) : Bool := expField w != 255

/-- The word with sign `s`, exponent field `e` and fraction field `f`, each in its range. -/
def packWord (s : Bool) (e f : Nat) : Word :=
  BitVec.ofNat 32 ((if s then 2 ^ 31 else 0) + e * 2 ^ 23 + f)

/-- The zero with sign bit `s`. -/
def zeroWord (s : Bool) : Word := packWord s 0 0

/-- The infinity with sign bit `s`. -/
def infWord (s : Bool) : Word := packWord s 255 0

/-- The magnitude of a finite word in units of 2^-149: `f` for `e = 0`, else `(2^23 + f) * 2^(e - 1)` (R110). -/
def magUnits (w : Word) : Nat :=
  if expField w = 0 then fracField w else (2 ^ 23 + fracField w) * 2 ^ (expField w - 1)

/-- `val(w)` of a finite word, in units of 2^-149 (R110). -/
def valUnits (w : Word) : Int :=
  if signBit w then -(magUnits w : Int) else (magUnits w : Int)

/-- The last lines of R111's `RNE`, once the rounding quantum is chosen: `L` is E + 149, `mi` the rounded
number of quanta. -/
def roundedWord (s : Bool) (L mi : Nat) : Word :=
  if mi = 2 ^ 24 then
    (if L + 1 > 276 then infWord s else packWord s (L + 1 - 22) 0)
  else if L > 276 then infWord s
  else if mi < 2 ^ 23 then packWord s 0 mi
  else packWord s (L - 22) (mi - 2 ^ 23)

/-- `E + 149` of R111: floor(log2(a)) + 149 for a = num / den units, at least -126 + 149. -/
def quantumLog (num den : Nat) : Nat := max (Nat.log2 (num / den)) 23

/-- `mi` of R111: the number of quanta in num / den units, rounded to nearest, ties to even, where one quantum
is `q / den` units. -/
def nearestEven (num q : Nat) : Nat :=
  if 2 * (num % q) > q ∨ (2 * (num % q) = q ∧ (num / q) % 2 = 1) then num / q + 1 else num / q

/-- `RNE(x, zs)` of R111 for x = (-1)^s * (num / den) units of 2^-149. -/
def rne (s : Bool) (num den : Nat) (zs : Bool) : Word :=
  if num = 0 then zeroWord zs
  else
    roundedWord s (quantumLog num den) (nearestEven num (den * 2 ^ (quantumLog num den - 23)))

/-- The NaN word a free value stands for (R117): its sign and its fraction, with the exponent field set; a zero
fraction, which would be an infinity, gets the quiet bit. Every NaN word is the image of a value. Log 5. -/
def nanWord (free : Word) : Word :=
  packWord (signBit free) 255 (if fracField free = 0 then 2 ^ 22 else fracField free)

/-- The NaN pattern that operation `i` after `draws` earlier draws gives where a rule says NAN_OUT (R117). Log 5; that
two cores with equal counters draw the same pattern is the model's own (log 20). -/
def nanDraw (draws i : Nat) : Word := nanWord (Config.freeWord (draws + i))

/-- `fneg` of R115: flips bit 31 and nothing else. -/
def fneg (x : Word) : Word := x ^^^ 0x80000000#32

/-- `fadd` of R112. `nan` is the NAN_OUT of this one operation. -/
def fadd (nan x y : Word) : Word :=
  if isNaN x || isNaN y then nan
  else if isInf x && isInf y && (signBit x != signBit y) then nan
  else if isInf x then x
  else if isInf y then y
  else if valUnits x + valUnits y = 0 then zeroWord (signBit x && signBit y)
  else rne (decide (valUnits x + valUnits y < 0)) (valUnits x + valUnits y).natAbs 1 false

/-- `fsub` of R113. -/
def fsub (nan x y : Word) : Word :=
  if isNaN y then nan else fadd nan x (fneg y)

/-- `fmul` of R114. The product of two numbers of units of 2^-149 counts units of 2^-298. -/
def fmul (nan x y : Word) : Word :=
  if isNaN x || isNaN y then nan
  else if (isInf x && isZero y) || (isZero x && isInf y) then nan
  else if isInf x || isInf y then infWord (signBit x != signBit y)
  else
    rne (signBit x != signBit y) (magUnits x * magUnits y) (2 ^ 149) (signBit x != signBit y)

end Sys2Proof.Machine
end

