-- ==== Sys2Proof/Machine/Forward.lean ====
section
/-! DEFINITION. The forward 8-point transform FWD1D (spec/42_forward_1d.md R160 to R163) and FDCT1 (R165). The
butterfly is written once over any `add`, `sub`, `mul`, each told which of the transform's operations it is:
the hardware's are `fadd`, `fsub`, `fmul` with that operation's NaN pattern; over the reals they are the field
operations (R166). -/

namespace Sys2Proof.Machine

/-- Stages 1 and 2 of FWD1D (R161, R162): operations 0 to 11. -/
def fwdTemps {α : Type} (add sub : Nat → α → α → α) (v : Vector α 8) : FwdTemps α :=
  let s0 := add 0 v[0] v[7]
  let s1 := add 1 v[1] v[6]
  let s2 := add 2 v[2] v[5]
  let s3 := add 3 v[3] v[4]
  let m0 := sub 4 v[0] v[7]
  let m1 := sub 5 v[1] v[6]
  let m2 := sub 6 v[2] v[5]
  let m3 := sub 7 v[3] v[4]
  { v := v
    s := #v[s0, s1, s2, s3]
    m := #v[m0, m1, m2, m3]
    ss1 := add 8 s1 s2
    ss2 := add 9 s0 s3
    mm1 := sub 10 s1 s2
    mm2 := sub 11 s0 s3 }

/-- Stage 3 of FWD1D (R163): operations 12 to 49, reading the ROM words 6 to 12 and the temporaries. -/
def fwdOut {α : Type} (add sub mul : Nat → α → α → α) (rom : Vector α 13) (t : FwdTemps α) :
    Vector α 8 :=
  let K := rom[6]
  let a1K := rom[7]
  let b1K := rom[8]
  let c1K := rom[9]
  let d1K := rom[10]
  let a2K := rom[11]
  let b2K := rom[12]
  let m0 := t.m[0]
  let m1 := t.m[1]
  let m2 := t.m[2]
  let m3 := t.m[3]
  let o0 := mul 13 (add 12 t.ss2 t.ss1) K
  let o4 := mul 15 (sub 14 t.ss2 t.ss1) K
  let o2 := add 18 (mul 16 a2K t.mm2) (mul 17 b2K t.mm1)
  let o6 := sub 21 (mul 19 b2K t.mm2) (mul 20 a2K t.mm1)
  let o1 := add 28 (add 27 (add 26 (mul 22 a1K m0) (mul 23 b1K m1)) (mul 24 c1K m2)) (mul 25 d1K m3)
  let o3 := sub 35 (sub 34 (sub 33 (mul 29 b1K m0) (mul 30 d1K m1)) (mul 31 a1K m2)) (mul 32 c1K m3)
  let o5 := add 42 (add 41 (sub 40 (mul 36 c1K m0) (mul 37 a1K m1)) (mul 38 d1K m2)) (mul 39 b1K m3)
  let o7 := sub 49 (add 48 (sub 47 (mul 43 d1K m0) (mul 44 c1K m1)) (mul 45 b1K m2)) (mul 46 a1K m3)
  #v[o0, o1, o2, o3, o4, o5, o6, o7]

/-- FWD1D over any arithmetic (R160). -/
def fwd1dWith {α : Type} (add sub mul : Nat → α → α → α) (rom : Vector α 13) (v : Vector α 8) :
    Vector α 8 :=
  fwdOut add sub mul rom (fwdTemps add sub v)

/-- The hardware's temporaries for the line `v`; `nan i` is the NAN_OUT of operation `i` (R117). -/
def fwdTempsHw (nan : Nat → Word) (v : Vector Word 8) : FwdTemps Word :=
  fwdTemps (fun i => fadd (nan i)) (fun i => fsub (nan i)) v

/-- FWD1D of the hardware (R160 to R163). It takes no other argument: not the axis, not the line, not the
state. -/
def fwd1d (nan : Nat → Word) (v : Vector Word 8) : Vector Word 8 :=
  fwdOut (fun i => fadd (nan i)) (fun i => fsub (nan i)) (fun i => fmul (nan i)) romTable
    (fwdTempsHw nan v)

/-- How many operations one FWD1D has, 22 fmul and 28 fadd or fsub (R164): how many free values it draws. -/
def fwdOps : Nat := 50

/-- One forward line transform in place: all eight reads, FWD1D, all eight writes (R165). TMP keeps the
line's temporaries (R29). -/
def forwardLine (axis : Axis) (n : BitVec 3) (s : State) : State :=
  { s with
    blk := transformLine (fwd1d (nanDraw s.draws)) axis n s.blk
    tmp := { s.tmp with fwd := fwdTempsHw (nanDraw s.draws) (gather s.blk axis n) }
    draws := s.draws + fwdOps }

/-- FDCT1 axis, n (R165). -/
def execFdct1 (axis : Axis) (n : BitVec 3) (s : State) : StepResult :=
  .next (respond s.lat.line .ok 0 (forwardLine axis n s))

end Sys2Proof.Machine
end

