-- ==== Sys2Proof/Machine/Inverse.lean ====
section
/-! DEFINITION. The inverse 8-point transform INV1D (spec/43_inverse_1d.md R180 to R184) and IDCT1 (R185),
written once over any `add`, `sub`, `mul`, `neg`, as the forward transform is. Stage 1 is the repaired one of
R181 (90_conflicts.md C2). -/

namespace Sys2Proof.Machine

/-- Stages 1, 2 and 3 of INV1D (R181, R182, R183): operations 0 to 39. -/
def invTemps {α : Type} (add sub mul : Nat → α → α → α) (neg : α → α) (rom : Vector α 13)
    (X : Vector α 8) : InvTemps α :=
  let a1 := rom[0]
  let b1 := rom[1]
  let c1 := rom[2]
  let d1 := rom[3]
  let a2 := rom[4]
  let b2 := rom[5]
  let s1 := add 2 (mul 0 a2 X[2]) (mul 1 b2 X[6])
  let s2 := sub 5 (mul 3 b2 X[2]) (mul 4 a2 X[6])
  let m2 := add 6 X[0] X[4]
  let m1 := sub 7 X[4] X[0]
  { X := X
    s1 := s1
    s2 := s2
    m1 := m1
    m2 := m2
    ss1 := add 8 m2 s1
    mm1 := sub 9 m2 s1
    ss2 := sub 10 (neg s2) m1
    mm2 := sub 11 s2 m1
    k1 := add 18 (add 17 (add 16 (mul 12 a1 X[1]) (mul 13 b1 X[3])) (mul 14 c1 X[5])) (mul 15 d1 X[7])
    k2 := sub 25 (sub 24 (sub 23 (mul 19 b1 X[1]) (mul 20 d1 X[3])) (mul 21 a1 X[5])) (mul 22 c1 X[7])
    k3 := add 32 (add 31 (sub 30 (mul 26 c1 X[1]) (mul 27 a1 X[3])) (mul 28 d1 X[5])) (mul 29 b1 X[7])
    k4 := sub 39 (add 38 (sub 37 (mul 33 d1 X[1]) (mul 34 c1 X[3])) (mul 35 b1 X[5])) (mul 36 a1 X[7]) }

/-- Stage 4 of INV1D (R184): operations 40 to 47. -/
def invOut {α : Type} (add sub : Nat → α → α → α) (t : InvTemps α) : Vector α 8 :=
  #v[add 40 t.ss1 t.k1, add 41 t.mm2 t.k2, add 42 t.ss2 t.k3, add 43 t.mm1 t.k4,
     sub 47 t.mm1 t.k4, sub 46 t.ss2 t.k3, sub 45 t.mm2 t.k2, sub 44 t.ss1 t.k1]

/-- INV1D over any arithmetic (R180). -/
def inv1dWith {α : Type} (add sub mul : Nat → α → α → α) (neg : α → α) (rom : Vector α 13)
    (X : Vector α 8) : Vector α 8 :=
  invOut add sub (invTemps add sub mul neg rom X)

/-- The hardware's temporaries for the line `X`; `nan i` is the NAN_OUT of operation `i` (R117). -/
def invTempsHw (nan : Nat → Word) (X : Vector Word 8) : InvTemps Word :=
  invTemps (fun i => fadd (nan i)) (fun i => fsub (nan i)) (fun i => fmul (nan i)) fneg romTable X

/-- INV1D of the hardware (R180 to R184). It takes no other argument. -/
def inv1d (nan : Nat → Word) (X : Vector Word 8) : Vector Word 8 :=
  invOut (fun i => fadd (nan i)) (fun i => fsub (nan i)) (invTempsHw nan X)

/-- How many operations one INV1D has, 20 fmul and 28 fadd or fsub (R189): how many free values it draws. -/
def invOps : Nat := 48

/-- One inverse line transform in place: all eight reads, INV1D, all eight writes (R185). TMP keeps the
line's temporaries (R29). -/
def inverseLine (axis : Axis) (n : BitVec 3) (s : State) : State :=
  { s with
    blk := transformLine (inv1d (nanDraw s.draws)) axis n s.blk
    tmp := { s.tmp with inv := invTempsHw (nanDraw s.draws) (gather s.blk axis n) }
    draws := s.draws + invOps }

/-- IDCT1 axis, n (R185). -/
def execIdct1 (axis : Axis) (n : BitVec 3) (s : State) : StepResult :=
  .next (respond s.lat.line .ok 0 (inverseLine axis n s))

end Sys2Proof.Machine
end

