-- ==== Sys2Proof/Machine/Transform2D.lean ====
section
/-! DEFINITION. The 2D orchestrator: the sequencer of spec/10_state.md R27, the schedule of
44_transform_2d.md R202, and FDCT2 and IDCT2 (R200, R201). A 2D command is its sixteen sequencer steps inside
one step of the machine (R27, log 2). -/

namespace Sys2Proof.Machine

/-- The line transform of a kind of 2D command (R202). -/
def seqTransform (kind : SeqKind) (axis : Axis) (n : BitVec 3) (s : State) : State :=
  match kind with
  | .fwd2 => forwardLine axis n s
  | .inv2 => inverseLine axis n s

/-- One step of the sequencer (R27): in `run(kind, t)`, one line transform on the line `(axis, n)` of step
`t`, then `t + 1`, or `idle` after step 15. -/
def seqStep (s : State) : State :=
  match s.seq with
  | .idle => s
  | .run kind t =>
    { seqTransform kind (seqAxis kind t) (seqLine t) s with
      seq := if t = 15 then .idle else .run kind (t + 1) }

/-- `k` steps of the sequencer. -/
def seqSteps : Nat → State → State
  | 0, s => s
  | k + 1, s => seqSteps k (seqStep s)

/-- The sixteen steps of a 2D command from its first (R27, R202). -/
def runSequencer (kind : SeqKind) (s : State) : State :=
  seqSteps 16 { s with seq := .run kind 0 }

/-! The block of a 2D command as a function of the block alone, over any line transforms: the hardware's FWD1D or INV1D
with its NaN patterns (`runSequencer_blk` of Sys2Proof/Laws/Transform2D.lean says the sequencer computes it), or the
exact real ones (R210). -/

/-- One pass: the eight lines of an axis in ascending order, line `n` by `f n` (R200, R201). -/
def passBlk {α : Type} (f : BitVec 3 → Vector α 8 → Vector α 8) (axis : Axis) (b : Vector α 64) :
    Vector α 64 :=
  positions.foldl (fun b n => transformLine (f n) axis n b) b

/-- The two passes of a kind of 2D command, sequencer step `t` by `f t`: steps 0 to 7, then steps 8 to 15, each pass on
the axis the sequencer gives its first step (R27, R202). -/
def transformBlk {α : Type} (kind : SeqKind) (f : BitVec 4 → Vector α 8 → Vector α 8)
    (b : Vector α 64) : Vector α 64 :=
  passBlk (fun n => f (1#1 ++ n)) (seqAxis kind 8) (passBlk (fun n => f (0#1 ++ n)) (seqAxis kind 0) b)

/-- The line function of a kind of 2D command, with the NaN patterns `nan` (R202). -/
def seqLine1d (kind : SeqKind) (nan : Nat → Word) : Vector Word 8 → Vector Word 8 :=
  match kind with
  | .fwd2 => fwd1d nan
  | .inv2 => inv1d nan

/-- How many free values one line transform of a kind draws (log 5). -/
def seqOps : SeqKind → Nat
  | .fwd2 => fwdOps
  | .inv2 => invOps

/-- FDCT2 (R200): R-lines 0 to 7, then C-lines 0 to 7. -/
def execFdct2 (s : State) : StepResult :=
  .next (respond s.lat.block .ok 0 (runSequencer .fwd2 s))

/-- IDCT2 (R201): C-lines 0 to 7, then R-lines 0 to 7. -/
def execIdct2 (s : State) : StepResult :=
  .next (respond s.lat.block .ok 0 (runSequencer .inv2 s))

end Sys2Proof.Machine
end

