-- ==== Sys2Proof/Machine/Dispatch.lean ====
section
/-! DEFINITION. What each command does: one arm per constructor, each one call of its meaning. -/

namespace Sys2Proof.Machine

def exec (i : Instr) (s : State) : Host.Outcome State Fault Refusal :=
  match i with
  | .wrb idx => Sys2Proof.Machine.execWrb idx s
  | .rdb idx => Sys2Proof.Machine.execRdb idx s
  | .rdc k => Sys2Proof.Machine.execRdc k s
  | .fdct1 axis n => Sys2Proof.Machine.execFdct1 axis n s
  | .idct1 axis n => Sys2Proof.Machine.execIdct1 axis n s
  | .fdct2 => Sys2Proof.Machine.execFdct2 s
  | .idct2 => Sys2Proof.Machine.execIdct2 s
  | .rdst => Sys2Proof.Machine.execRdst s
  | .nop => Sys2Proof.Machine.execNop s

end Sys2Proof.Machine
end

