-- ==== Sys2Proof/Machine/Port.lean ====
section
/-! DEFINITION. The command port at one rising clock edge (spec/20_memory.md R51 to R57, 60_exceptions.md R240,
70_reset_and_hazards.md R270): acceptance, the busy period, reset, and the port's output signals. -/

namespace Sys2Proof.Machine

/-- `cmd_ready` (R53): 1 exactly while the core is idle. Log 19. -/
def State.cmdReady (s : State) : Bool :=
  match s.port with
  | .idle => true
  | .busy _ _ => false

/-- The response presented this cycle, if one is (R56): the port is busy and no cycle is left to wait. -/
def State.presented (s : State) : Option Response :=
  match s.port with
  | .busy 0 r => some r
  | _ => none

/-- `rsp_valid` (R56). -/
def State.rspValid (s : State) : Bool := s.presented.isSome

/-- `rsp_code` while `rsp_valid` is 1 (R56). -/
def State.rspCode (s : State) : Option (BitVec 2) := s.presented.map fun r => r.code.bits

/-- `rsp_data` while `rsp_valid` is 1 (R56). -/
def State.rspData (s : State) : Option Word := s.presented.map fun r => r.data

/-- The latency of the command a word is, LAT_ILL for an illegal word (R277); it depends on the word alone. -/
def latencyOf (l : Latencies) (w : Word) : Nat :=
  match decode w with
  | .ok (.wrb _) => l.wrb
  | .ok (.rdb _) => l.rdb
  | .ok (.rdc _) => l.rdc
  | .ok (.fdct1 _ _) => l.line
  | .ok (.idct1 _ _) => l.line
  | .ok .fdct2 => l.block
  | .ok .idct2 => l.block
  | .ok .rdst => l.rdst
  | .ok .nop => l.nop
  | .error _ => l.illegal

/-- A command is accepted (R52): the pair is sampled, the word is decoded, and the command is executed; an
illegal word raises IllegalCommand (R85, R240). The whole effect falls on this edge (log 2). -/
def accept (c : Cmd) (s : State) : StepResult :=
  match decode c.word with
  | .ok i => exec i { s with cmd := c }
  | .error _ => .next (raiseIllegalCommand { s with cmd := c })

/-- One rising clock edge with the host's signals `e`: reset wins (R270); else an idle core accepts a presented
command (R52) and a busy one ignores it (R53). -/
def clockEdge (e : EdgeIn) (s : State) : StepResult :=
  if e.rst then .next (resetEdge s)
  else
    match s.port with
    | .idle => if e.cmdValid then accept { word := e.cmdWord, data := e.cmdData } s else .next s
    | .busy wait r => .next (busyEdge e.rspReady wait r s)

/-- An edge at which the host drives nothing: no reset, no command, no response taken. -/
def quietEdge : EdgeIn :=
  { rst := false, cmdValid := false, cmdWord := 0, cmdData := 0, rspReady := false }

/-- An edge at which the host presents a command. -/
def presentEdge (c : Cmd) : EdgeIn :=
  { rst := false, cmdValid := true, cmdWord := c.word, cmdData := c.data, rspReady := false }

/-- An edge at which the host can take a response and presents nothing. -/
def takeEdge : EdgeIn :=
  { rst := false, cmdValid := false, cmdWord := 0, cmdData := 0, rspReady := true }

/-- The host's signals at the coming edge: with none listed the host drives nothing (log 1). -/
def State.nextInput (s : State) : EdgeIn :=
  match s.inputs with
  | [] => quietEdge
  | e :: _ => e

/-- The host's signals of the coming edge are used up. -/
def State.dropInput (s : State) : State := { s with inputs := s.inputs.tail }

/-- The core idle, with a command presented at the coming edge, before what the host does after. -/
def presentTo (c : Cmd) (s : State) : State :=
  { s with port := .idle, inputs := presentEdge c :: s.inputs }

end Sys2Proof.Machine
end

