-- ==== Sys2Proof/Machine/Step.lean ====
section
/-! DEFINITION. The step: one rising clock edge of the core (spec/20_memory.md R51). -/

namespace Sys2Proof.Machine

/-- One rising clock edge with the next of the host's signals. -/
def step (s : State) : Host.Outcome State Fault Refusal :=
  clockEdge s.nextInput s.dropInput

/-- `s` with the command word `w` presented at the coming edge to an idle core, its data word 0, so that the
next step accepts and runs it. The core stores no program (R26): a command is fetched by being presented.
Log 11. -/
def State.withFetchWord (s : State) (_nbits w : Nat) : State :=
  presentTo { word := BitVec.ofNat 32 w, data := 0 } s

end Sys2Proof.Machine
end

