-- ==== Sys2Proof/Machine/Transaction.lean ====
section
/-! DEFINITION. The machine at the level of whole commands, the level of every functional rule of the spec
(spec/10_state.md R20): a command is accepted, executed and its response taken as one unit (20_memory.md R53,
R54), and a program is a list of commands (R58). Time and the host's signals are left out here; the step keeps
them. -/

namespace Sys2Proof.Machine

/-- The pending response is taken, however many cycles are left before it is presented. -/
def finishResponse (s : State) : State :=
  match s.port with
  | .idle => s
  | .busy _ r => takeResponse r s

/-- One command from acceptance to the taking of its response (R53, R55). -/
def transaction (c : Cmd) (s : State) : StepResult :=
  match accept c s with
  | .next t => .next (finishResponse t)
  | .fault f => .fault f
  | .refused r => .refused r

/-- A list of commands, in order (R54, R58). -/
def runProgram : List Cmd → State → StepResult
  | [], s => .next s
  | c :: cs, s =>
    match transaction c s with
    | .next t => runProgram cs t
    | .fault f => .fault f
    | .refused r => .refused r

/-- The host's signals for one command: it presents the command, then drives nothing for `pause` edges, then
holds `rsp_ready` for `hold` edges. -/
def commandScript (c : Cmd) (pause hold : Nat) : List EdgeIn :=
  presentEdge c :: (List.replicate pause quietEdge ++ List.replicate hold takeEdge)

/-- The command with the word `w` and the data word 0, which is what an assembler emits for every command but
WRB (R88, R90). -/
def plainCmd (i : Instr) : Cmd := { word := encode i, data := 0 }

/-- WRB idx, word as a command (R221). -/
def wrbCmd (idx : BitVec 6) (w : Word) : Cmd := { word := encode (.wrb idx), data := w }

end Sys2Proof.Machine
end

