-- ==== Sys2Proof/Machine/Assembler.lean ====
section
/-! DEFINITION. How a host writes a program: the pseudo-instructions and the assembler syntax of
spec/30_encoding.md R88, R89, over lists of characters. The assembler is no part of the core; it is here because
the spec defines it, and because the pseudo-instructions name the command sequences the spec's rules speak of
(R12, R205, R225). What R88 leaves open is in log 16. -/

namespace Sys2Proof.Machine

/-- The pseudo-instructions of R89. -/
inductive Pseudo where
  | fwd
  | inv
  | fpass (axis : Axis)
  | ipass (axis : Axis)
  | ldblk (ws : Vector Word 64)
  | rdblk
  deriving DecidableEq, Repr

/-- All 64 block indices in ascending order. -/
def allIndices : List (BitVec 6) := (List.range 64).map (BitVec.ofNat 6)

/-- The expansions of R89. -/
def Pseudo.expand : Pseudo → List Cmd
  | .fwd => [plainCmd .fdct2]
  | .inv => [plainCmd .idct2]
  | .fpass axis => positions.map fun n => plainCmd (.fdct1 axis n)
  | .ipass axis => positions.map fun n => plainCmd (.idct1 axis n)
  | .ldblk ws => allIndices.map fun i => wrbCmd i (readBlk ws i)
  | .rdblk => allIndices.map fun i => plainCmd (.rdb i)

/-- One assembled line: a command, a raw word, or a pseudo-instruction (R88, R89). -/
inductive AsmLine where
  | command (i : Instr) (data : Word)
  | raw (w : Word)
  | pseudo (p : Pseudo)
  deriving DecidableEq, Repr

/-- The pairs a line stands for; `.word` emits `cmd_data = 0` (R88). -/
def AsmLine.cmds : AsmLine → List Cmd
  | .command i d => [{ word := encode i, data := d }]
  | .raw w => [{ word := w, data := 0 }]
  | .pseudo p => p.expand

/-- A character between operands. -/
def isBlankChar (c : Char) : Bool := c == ' ' || c == '\t' || c == '\r'

/-- Without the blanks at either end. -/
def trimChars (cs : List Char) : List Char :=
  ((cs.dropWhile isBlankChar).reverse.dropWhile isBlankChar).reverse

/-- Lower case to upper case (R88: the assembler accepts lower case as well). -/
def upperChar (c : Char) : Char :=
  if 97 ≤ c.toNat ∧ c.toNat ≤ 122 then Char.ofNat (c.toNat - 32) else c

/-- The operands of a line: split at the commas that no bracket encloses. `cur` is the operand so far,
reversed. -/
def splitOperands (cur : List Char) (inBracket : Bool) : List Char → List (List Char)
  | [] => [trimChars cur.reverse]
  | c :: cs =>
    if c == ',' && !inBracket then trimChars cur.reverse :: splitOperands [] false cs
    else splitOperands (c :: cur) (if c == '[' then true else if c == ']' then false else inBracket) cs

/-- The value of a digit in upper case, in a base of at most 16. -/
def digitValue (base : Nat) (c : Char) : Option Nat :=
  let v :=
    if 48 ≤ c.toNat ∧ c.toNat ≤ 57 then c.toNat - 48
    else if 65 ≤ c.toNat ∧ c.toNat ≤ 70 then c.toNat - 55 else 16
  if v < base then some v else none

/-- Digits read onto a value. -/
def parseDigits (base acc : Nat) : List Char → Option Nat
  | [] => some acc
  | c :: cs => (digitValue base c).bind fun d => parseDigits base (acc * base + d) cs

/-- A number, decimal or hexadecimal with 0x (R88). -/
def parseNumber : List Char → Option Nat
  | '0' :: 'X' :: c :: cs => parseDigits 16 0 (c :: cs)
  | c :: cs => parseDigits 10 0 (c :: cs)
  | [] => none

/-- A number below a bound: an operand out of range is refused, never truncated (R88). -/
def parseBelow (bound : Nat) (cs : List Char) : Option Nat :=
  (parseNumber cs).filter fun n => n < bound

/-- A block index: 0 to 63, or `[c,r]` (R88). -/
def parseIdx (cs : List Char) : Option (BitVec 6) :=
  match cs with
  | '[' :: rest =>
    match rest.reverse with
    | ']' :: inner =>
      match splitOperands [] false inner.reverse with
      | [c, r] =>
        (parseBelow 8 c).bind fun c => (parseBelow 8 r).map fun r =>
          blockIdx (BitVec.ofNat 3 c) (BitVec.ofNat 3 r)
      | _ => none
    | _ => none
  | _ => (parseBelow 64 cs).map (BitVec.ofNat 6)

/-- The decimal number after `=`: digits, then optionally a point and digits; its numerator and its
denominator. -/
def parseDecimal (cs : List Char) : Option (Nat × Nat) :=
  let whole := cs.takeWhile fun c => c != '.'
  let rest := cs.drop whole.length
  if whole.isEmpty then none
  else
    match rest with
    | [] => (parseDigits 10 0 whole).map fun n => (n, 1)
    | _ :: frac =>
      if frac.isEmpty then none
      else (parseDigits 10 0 (whole ++ frac)).map fun n => (n, 10 ^ frac.length)

/-- The binary32 word nearest to a decimal number, ties to even (R88, R111). -/
def decimalWord (s : Bool) (num den : Nat) : Word := rne s (num * 2 ^ 149) den s

/-- The word operand of WRB and LDBLK: eight hexadecimal digits, or `=x` (R88). -/
def parseWord (cs : List Char) : Option Word :=
  match cs with
  | '=' :: '-' :: d => (parseDecimal d).map fun (n, m) => decimalWord true n m
  | '=' :: d => (parseDecimal d).map fun (n, m) => decimalWord false n m
  | '0' :: 'X' :: d => if d.length = 8 then (parseDigits 16 0 d).map (BitVec.ofNat 32) else none
  | _ => none

/-- The names of the ROM slots, 0 to 12 in order (R88). -/
def romNames : List (List Char) :=
  [['A', '1'], ['B', '1'], ['C', '1'], ['D', '1'], ['A', '2'], ['B', '2'], ['K'],
   ['A', '1', 'K'], ['B', '1', 'K'], ['C', '1', 'K'], ['D', '1', 'K'], ['A', '2', 'K'],
   ['B', '2', 'K']]

/-- A ROM index: 0 to 12, or a name (R88). -/
def parseRom (cs : List Char) : Option (BitVec 4) :=
  match romNames.findIdx? (fun name => name == cs) with
  | some k => some (BitVec.ofNat 4 k)
  | none => (parseBelow 13 cs).map (BitVec.ofNat 4)

/-- An axis letter (R88). -/
def parseAxis : List Char → Option Axis
  | ['R'] => some .rLine
  | ['C'] => some .cLine
  | _ => none

/-- A line number, 0 to 7 (R88). -/
def parseLine (cs : List Char) : Option (BitVec 3) := (parseBelow 8 cs).map (BitVec.ofNat 3)

/-- The 64 words of LDBLK (R89). -/
def parseBlock (ops : List (List Char)) : Option (Vector Word 64) :=
  (ops.mapM parseWord).bind fun ws =>
    if h : ws.length = 64 then some ⟨ws.toArray, by simpa using h⟩ else none

/-- A line's mnemonic and operands, in upper case (R88, R89). -/
def parseStatement (mnemonic : List Char) (ops : List (List Char)) : Option AsmLine :=
  match mnemonic, ops with
  | ['W', 'R', 'B'], [i, w] => (parseIdx i).bind fun i => (parseWord w).map fun w => .command (.wrb i) w
  | ['R', 'D', 'B'], [i] => (parseIdx i).map fun i => .command (.rdb i) 0
  | ['R', 'D', 'C'], [k] => (parseRom k).map fun k => .command (.rdc k) 0
  | ['F', 'D', 'C', 'T', '1'], [a, n] =>
    (parseAxis a).bind fun a => (parseLine n).map fun n => .command (.fdct1 a n) 0
  | ['I', 'D', 'C', 'T', '1'], [a, n] =>
    (parseAxis a).bind fun a => (parseLine n).map fun n => .command (.idct1 a n) 0
  | ['F', 'D', 'C', 'T', '2'], [] => some (.command .fdct2 0)
  | ['I', 'D', 'C', 'T', '2'], [] => some (.command .idct2 0)
  | ['R', 'D', 'S', 'T'], [] => some (.command .rdst 0)
  | ['N', 'O', 'P'], [] => some (.command .nop 0)
  | ['.', 'W', 'O', 'R', 'D'], [w] => (parseBelow (2 ^ 32) w).map fun w => .raw (BitVec.ofNat 32 w)
  | ['F', 'W', 'D'], [] => some (.pseudo .fwd)
  | ['I', 'N', 'V'], [] => some (.pseudo .inv)
  | ['F', 'P', 'A', 'S', 'S'], [a] => (parseAxis a).map fun a => .pseudo (.fpass a)
  | ['I', 'P', 'A', 'S', 'S'], [a] => (parseAxis a).map fun a => .pseudo (.ipass a)
  | ['L', 'D', 'B', 'L', 'K'], ws => (parseBlock ws).map fun b => .pseudo (.ldblk b)
  | ['R', 'D', 'B', 'L', 'K'], [] => some (.pseudo .rdblk)
  | _, _ => none

/-- One line of source (R88): the comment dropped, then one statement; `none` where the assembler refuses the line.
DESIGN CHOICE: a line with nothing on it, or a comment alone, is accepted and emits no pair (log 16). -/
def assembleLine (line : List Char) : Option (List Cmd) :=
  let cs := trimChars ((line.takeWhile fun c => c != ';').map upperChar)
  if cs.isEmpty then some []
  else
    let mnemonic := cs.takeWhile fun c => !isBlankChar c
    let rest := trimChars (cs.drop mnemonic.length)
    (parseStatement mnemonic (if rest.isEmpty then [] else splitOperands [] false rest)).map
      AsmLine.cmds

/-- A program: the pairs in source order (R88); `none` if a line is refused. -/
def assemble (lines : List (List Char)) : Option (List Cmd) :=
  (lines.mapM assembleLine).map List.flatten

end Sys2Proof.Machine
end

