-- ==== Sys2Proof/Machine/System.lean ====
section
/-! DEFINITION. Several cores (spec/20_memory.md R70, 60_exceptions.md R252): each has its own state and port,
and they share only the constant ROM. -/

namespace Sys2Proof.Machine

/-- `NUM_INSTANCES` cores, one state each (R5, R252). DESIGN CHOICE: their free values come from the one
`Config.freeWord`, each core at its own counter, so cores with equal counters draw alike, which the spec leaves
open (log 20, unsafe for a claim that compares the free values of two cores). -/
abbrev System := List State

/-- One rising clock edge of core `i` alone; the list says which core moves (log 15). No such core: nothing
moves. -/
def systemStep (i : Nat) (y : System) : Host.Outcome System Fault Refusal :=
  match y[i]? with
  | none => .next y
  | some s =>
    match step s with
    | .next t => .next (y.set i t)
    | .fault f => .fault f
    | .refused r => .refused r

end Sys2Proof.Machine
end

