-- ==== Sys2Proof/Reference.lean ====
section
/-! DEFINITION. What the claims compare the machine with: the spec's own formulas over the rationals for the
arithmetic (spec/40_numerics.md R110 to R115), its matrix and its constants over the reals (41_basis_rom.md
R142, R148), the 2D transforms over the reals (44_transform_2d.md R210), and equality up to the bits of a NaN (R117, R124). No step of the machine uses this file. -/

namespace Sys2Proof.Reference

open Sys2Proof Machine

/-- `val(w)` of a finite word, from the table of R110. -/
def val (w : Word) : ℚ :=
  (if signBit w then -1 else 1) *
    (if expField w = 0 then (fracField w : ℚ) * (2 : ℚ) ^ (-149 : ℤ)
     else (2 ^ 23 + (fracField w : ℚ)) * (2 : ℚ) ^ ((expField w : ℤ) - 150))

/-- The word `{s, e[7:0], f[22:0]}` (R110). -/
def fields (s : Bool) (e f : ℤ) : Word :=
  BitVec.ofBool s ++ BitVec.ofInt 8 e ++ BitVec.ofInt 23 f

/-- The last lines of `RNE` in R111, from the rounded `mi` and `E` on. -/
def rnePack (s : Bool) (E mi : ℤ) : Word :=
  if E > 127 then fields s 255 0
  else if mi < 2 ^ 23 then fields s 0 mi
  else fields s (E + 127) (mi - 2 ^ 23)

/-- `RNE` of R111 line by line, from `E`, `m` on. -/
def rneFrom (s : Bool) (E : ℤ) (m : ℚ) : Word :=
  let r := m - ⌊m⌋
  let mi := if r > 1 / 2 ∨ (r = 1 / 2 ∧ ⌊m⌋ % 2 = 1) then ⌊m⌋ + 1 else ⌊m⌋
  if mi = 2 ^ 24 then rnePack s (E + 1) (2 ^ 23) else rnePack s E mi

/-- `RNE(x, zs)` of R111. -/
def rne (x : ℚ) (zs : Bool) : Word :=
  if x = 0 then fields zs 0 0
  else
    let E := max (Int.log 2 |x|) (-126)
    rneFrom (decide (x < 0)) E (|x| / (2 : ℚ) ^ (E - 23))

/-- `fadd` of R112 line by line. -/
def fadd (nan x y : Word) : Word :=
  if isNaN x || isNaN y then nan
  else if isInf x && isInf y && (x.getLsbD 31 != y.getLsbD 31) then nan
  else if isInf x then x
  else if isInf y then y
  else
    let t := val x + val y
    if t = 0 then (if x.getLsbD 31 && y.getLsbD 31 then 0x80000000 else 0x00000000) else rne t false

/-- `fmul` of R114 line by line. -/
def fmul (nan x y : Word) : Word :=
  if isNaN x || isNaN y then nan
  else
    let s := x.getLsbD 31 ^^ y.getLsbD 31
    if (isInf x && isZero y) || (isZero x && isInf y) then nan
    else if isInf x || isInf y then fields s 255 0
    else rne (val x * val y) s

/-- The largest finite magnitude, `MAXF = (2^24 - 1) * 2^104` (R110). -/
def maxF : ℚ := (2 ^ 24 - 1) * 2 ^ 104

/-- The two words are equal, or both are NaN words: what a claim may rely on (R117, R124). -/
def SameOrNaN (x y : Word) : Prop := x = y ∨ (isNaN x = true ∧ isNaN y = true)

/-- A source of NAN_OUT patterns: each is a NaN word (R117). -/
def NanSource (nan : Nat → Word) : Prop := ∀ i, isNaN (nan i) = true

/-- The angle `j*pi/16`. -/
noncomputable def angle (j : ℕ) : ℝ := j * Real.pi / 16

/-- The constants over the reals (R142): `sqrt(2)*cos(j*pi/16)` for j = 1, 3, 5, 7, 2, 6, then K, then the
K-scaled six. -/
noncomputable def realRom : Vector ℝ 13 :=
  let g (j : ℕ) : ℝ := Real.sqrt 2 * Real.cos (angle j)
  #v[g 1, g 3, g 5, g 7, g 2, g 6, 1 / 8, g 1 / 8, g 3 / 8, g 5 / 8, g 7 / 8, g 2 / 8, g 6 / 8]

/-- The matrix `C` of R148: `C[0][n] = 1`, `C[k][n] = sqrt(2)*cos((2n+1)*k*pi/16)`. -/
noncomputable def basis (k n : ℕ) : ℝ :=
  if k = 0 then 1 else Real.sqrt 2 * Real.cos (angle ((2 * n + 1) * k))

/-- FWD1D with exact real arithmetic and the real constants (R166). -/
noncomputable def fwdReal (v : Vector ℝ 8) : Vector ℝ 8 :=
  fwd1dWith (fun _ x y => x + y) (fun _ x y => x - y) (fun _ x y => x * y) realRom v

/-- INV1D with exact real arithmetic and the real constants (R186). -/
noncomputable def invReal (X : Vector ℝ 8) : Vector ℝ 8 :=
  inv1dWith (fun _ x y => x + y) (fun _ x y => x - y) (fun _ x y => x * y) (fun x => -x) realRom X

/-- The matrix `C` of R148 as a matrix. -/
noncomputable def dctMatrix : Matrix (Fin 8) (Fin 8) ℝ := fun k n => basis k n

/-- A block of reals as the matrix `M[c][r] = b[c][r]` of R210, indexed (column index, row index). -/
def blockMatrix (b : Vector ℝ 64) : Matrix (Fin 8) (Fin 8) ℝ :=
  fun c r => readBlk b (blockIdx (BitVec.ofFin c) (BitVec.ofFin r))

/-- One forward pass with exact real arithmetic (R210). -/
noncomputable def fwdPassReal (axis : Axis) (b : Vector ℝ 64) : Vector ℝ 64 :=
  passBlk (fun _ => fwdReal) axis b

/-- One inverse pass with exact real arithmetic (R210). -/
noncomputable def invPassReal (axis : Axis) (b : Vector ℝ 64) : Vector ℝ 64 :=
  passBlk (fun _ => invReal) axis b

/-- FDCT2 with exact real arithmetic, on the machine's schedule (R210). -/
noncomputable def fwd2dReal (b : Vector ℝ 64) : Vector ℝ 64 := transformBlk .fwd2 (fun _ => fwdReal) b

/-- IDCT2 with exact real arithmetic, on the machine's schedule (R210). -/
noncomputable def inv2dReal (b : Vector ℝ 64) : Vector ℝ 64 := transformBlk .inv2 (fun _ => invReal) b

end Sys2Proof.Reference
end

