-- ==== Sys2Proof/Safety.lean ====
section
/-! DEFINITION. What claims mean by a legal state and by a run with no fault recorded. -/

namespace Sys2Proof.Machine

/-- What the spec says of a pending response (20_memory.md R56): an ILLEGAL one carries the data word 0, and
ILL is set while it is pending (60_exceptions.md R240, R246), from the acceptance edge on (log 2). -/
def State.responseOk (s : State) : Bool :=
  match s.port with
  | .idle => true
  | .busy _ r => r.code == .ok || (r.data == 0 && s.ill)

/-- What every state of a run satisfies: STATUS[31:1] is 0 (R25), SEQ is idle between commands (R27), a pending
response is one the spec allows (R56), and the latencies are positive (R277). That SEQ is idle also while a 2D command
is busy, and ILL set already while an ILLEGAL response waits, is the model's choice (log 2). -/
def State.legal (s : State) : Bool :=
  s.reservedStatusZero && s.seq == .idle && s.responseOk && s.lat.positive

/-- What a legal command leaves alone outside the block, the datapath and the port: STATUS, the command latch, the
record of responses, the host's coming signals, the latencies. -/
def ShellKept (s t : State) : Prop :=
  t.status = s.status ∧ t.cmd = s.cmd ∧ t.taken = s.taken ∧ t.inputs = s.inputs ∧ t.lat = s.lat

/-- The block store, TMP and the counter of free values are as before. -/
def DatapathKept (s t : State) : Prop := t.blk = s.blk ∧ t.tmp = s.tmp ∧ t.draws = s.draws

/-- A command with latency `latency` has answered `(code, data)` (R56, R277). -/
def Answers (t : State) (latency : Nat) (code : RspCode) (data : Word) : Prop :=
  t.port = .busy (latency - 1) { code := code, data := data }

/-- No fault is recorded (60_exceptions.md R246, R254). -/
def State.noFaultRecorded (s : State) : Bool := !s.ill

/-- No `rst` stands among the host's coming signals. -/
def State.noResetAhead (s : State) : Bool := s.inputs.all fun e => !e.rst

end Sys2Proof.Machine
end

