-- ==== Sys2Proof/Certificates/Slice0/Obligations.lean ====
section
/-! DEFINITION. The statements for the provers, from the numbered rules of spec/. -/

namespace Sys2Proof.Claims

open Sys2Proof Machine Reference

/-- The line transform a command applies to one line of a block, with the NaN patterns `nan`. -/
def lineOn (f : Vector Word 8 → Vector Word 8) (axis : Axis) (n : BitVec 3) (b : Vector Word 64) :
    Vector Word 64 :=
  scatter b axis n (f (gather b axis n))

/-- The commands that write the block store (10_state.md R21). -/
def writesBlock : Instr → Bool
  | .wrb _ | .fdct1 _ _ | .idct1 _ _ | .fdct2 | .idct2 => true
  | .rdb _ | .rdc _ | .rdst | .nop => false

/-- The four transform commands. -/
def isTransform : Instr → Bool
  | .fdct1 _ _ | .idct1 _ _ | .fdct2 | .idct2 => true
  | .wrb _ | .rdb _ | .rdc _ | .rdst | .nop => false

/-- Two block stores hold the same words, up to the bits of NaNs. -/
def SameBlock (a b : Vector Word 64) : Prop := ∀ i, SameOrNaN (readBlk a i) (readBlk b i)

/-- A line of eight NaN words. -/
def AllNaN (v : Vector Word 8) : Prop := ∀ j, isNaN (elem v j) = true

/-- The exact value (-1)^s * num / den units of 2^-149. -/
def unitsVal (s : Bool) (num den : ℕ) : ℚ :=
  (if s then -1 else 1) * ((num : ℚ) / (den : ℚ)) * (2 : ℚ) ^ (-149 : ℤ)

end Sys2Proof.Claims

open Sys2Proof Machine Claims

/-! ### Encoding (30_encoding.md) -/

/-- Words written out from the patterns of R83 and the vectors V-A2, one or more of each format. Sanity. -/
def Obligations.WrittenWordsDecode : Prop :=
  decode 0x10000000 = .ok (.wrb 0) ∧ decode 0x1000003F = .ok (.wrb 63) ∧
  decode 0x10000040 = .error .mustBeZeroBit ∧ decode 0x20000015 = .ok (.rdb 21) ∧
  decode 0x3000000C = .ok (.rdc 12) ∧ decode 0x3000000D = .error .reservedRomSlot ∧
  decode 0x40000007 = .ok (.fdct1 .rLine 7) ∧ decode 0x40000008 = .ok (.fdct1 .cLine 0) ∧
  decode 0x5000000B = .ok (.idct1 .cLine 3) ∧ decode 0x60000000 = .ok .fdct2 ∧
  decode 0x70000000 = .ok .idct2 ∧ decode 0x80000000 = .ok .rdst ∧ decode 0x90000000 = .ok .nop ∧
  decode 0x00000000 = .error .reservedOpcode ∧ decode 0xFFFFFFFF = .error .reservedOpcode

/-- R81, R84: a word decodes to a command exactly when the command is well-formed and the word is its encoding;
so every operand value survives, and each legal word means one command. -/
def Obligations.DecodeInvertsEncode : Prop :=
  ∀ (w : Word) (i : Instr), decode w = .ok i ↔ (i.wf = true ∧ encode i = w)

/-- R88: the encodings as numbers, for every operand value. -/
def Obligations.EncodingsAsNumbers : Prop :=
  (∀ idx : BitVec 6, (encode (.wrb idx)).toNat = 0x10000000 + idx.toNat ∧
    (encode (.rdb idx)).toNat = 0x20000000 + idx.toNat) ∧
  (∀ k : BitVec 4, (encode (.rdc k)).toNat = 0x30000000 + k.toNat) ∧
  (∀ n : BitVec 3,
    (encode (.fdct1 .rLine n)).toNat = 0x40000000 + n.toNat ∧
    (encode (.fdct1 .cLine n)).toNat = 0x40000008 + n.toNat ∧
    (encode (.idct1 .rLine n)).toNat = 0x50000000 + n.toNat ∧
    (encode (.idct1 .cLine n)).toNat = 0x50000008 + n.toNat) ∧
  (encode .fdct2).toNat = 0x60000000 ∧ (encode .idct2).toNat = 0x70000000 ∧
  (encode .rdst).toNat = 0x80000000 ∧ (encode .nop).toNat = 0x90000000

/-- R83: a word is the command of a row iff the row's match, mask and extra condition select it; 177 words are
legal; the all-zero and the all-one word are not. -/
def Obligations.OpcodeMapSelectsCommands : Prop :=
  (∀ w : Word, ∀ row ∈ opcodeMap,
    row.selects w = true ↔ ∃ i, decode w = .ok i ∧ i.mnemonic = row.mnemonic) ∧
  (∃ legal : List Word, legal.Nodup ∧ legal.length = 177 ∧ ∀ w, isLegal w = true ↔ w ∈ legal) ∧
  isLegal 0x00000000 = false ∧ isLegal 0xFFFFFFFF = false

/-- R85, first part: which words are illegal, in terms of the opcode `w / 2^28` and the other 28 bits. -/
def Obligations.IllegalWordsExactly : Prop :=
  ∀ w : Word,
    isLegal w = false ↔
      (w.toNat / 2 ^ 28 = 0 ∨ 10 ≤ w.toNat / 2 ^ 28) ∨
      ((w.toNat / 2 ^ 28 = 1 ∨ w.toNat / 2 ^ 28 = 2) ∧ 64 ≤ w.toNat % 2 ^ 28) ∨
      ((3 ≤ w.toNat / 2 ^ 28 ∧ w.toNat / 2 ^ 28 ≤ 5) ∧ 16 ≤ w.toNat % 2 ^ 28) ∨
      ((6 ≤ w.toNat / 2 ^ 28 ∧ w.toNat / 2 ^ 28 ≤ 9) ∧ w.toNat % 2 ^ 28 ≠ 0) ∨
      (w.toNat / 2 ^ 28 = 3 ∧ 13 ≤ w.toNat % 16)

/-! ### The access and system commands -/

/-- R221: WRB stores the data word, bit for bit, in exactly the addressed word, and completes in every state. -/
def Obligations.WrbWritesItsWord : Prop :=
  ∀ (idx : BitVec 6) (s : State),
    decode (0x10000000#32 + idx.setWidth 32) = .ok (.wrb idx) ∧
    ∃ t, exec (.wrb idx) s = .next t ∧
      readBlk t.blk idx = s.cmd.data ∧ (∀ i, i ≠ idx → readBlk t.blk i = readBlk s.blk i) ∧
      Answers t s.lat.wrb .ok 0 ∧ ShellKept s t ∧ t.seq = s.seq ∧ t.tmp = s.tmp ∧ t.draws = s.draws

/-- R222: RDB responds with the addressed word and changes nothing else, in every state. -/
def Obligations.RdbReturnsItsWord : Prop :=
  ∀ (idx : BitVec 6) (s : State),
    decode (0x20000000#32 + idx.setWidth 32) = .ok (.rdb idx) ∧
    ∃ t, exec (.rdb idx) s = .next t ∧
      Answers t s.lat.rdb .ok (readBlk s.blk idx) ∧ ShellKept s t ∧ DatapathKept s t ∧ t.seq = s.seq

/-- R146: RDC k responds with ROM[k] for k at most 12 and changes nothing else; the word of a reserved k is
illegal (R145), and the model's own meaning of that form (log 10) is the exception. -/
def Obligations.RdcReturnsItsConstant : Prop :=
  ∀ (k : BitVec 4) (s : State),
    (k.toNat ≤ 12 →
      decode (0x30000000#32 + k.setWidth 32) = .ok (.rdc k) ∧
      ∃ t w, romSlot k = some w ∧ exec (.rdc k) s = .next t ∧
        Answers t s.lat.rdc .ok w ∧ ShellKept s t ∧ DatapathKept s t ∧ t.seq = s.seq) ∧
    (12 < k.toNat →
      isLegal (0x30000000#32 + k.setWidth 32) = false ∧
      exec (.rdc k) s = .next (raiseIllegalCommand s))

/-- R223: RDST responds with 31 zero bits and ILL, clears nothing and changes nothing else. -/
def Obligations.RdstReportsIll : Prop :=
  decode 0x80000000 = .ok .rdst ∧
  ∀ s : State, ∃ t, exec .rdst s = .next t ∧
    Answers t s.lat.rdst .ok (if s.ill then 0x00000001 else 0x00000000) ∧
    ShellKept s t ∧ DatapathKept s t ∧ t.seq = s.seq

/-- R220: NOP responds 0 and does nothing else. -/
def Obligations.NopOnlyResponds : Prop :=
  decode 0x90000000 = .ok .nop ∧
  ∀ s : State, ∃ t, exec .nop s = .next t ∧
    Answers t s.lat.nop .ok 0 ∧ ShellKept s t ∧ DatapathKept s t ∧ t.seq = s.seq

/-! ### The line transforms -/

/-- R23: `8n + j` and `8j + n`; every element is on exactly one line of each axis, at one position. -/
def Obligations.LinesCoverTheBlock : Prop :=
  (∀ n j : BitVec 3, (lineIdx .rLine n j).toNat = 8 * n.toNat + j.toNat ∧
    (lineIdx .cLine n j).toNat = 8 * j.toNat + n.toNat) ∧
  (∀ (axis : Axis) (i : BitVec 6), ∃ n j, i = lineIdx axis n j ∧
    ∀ n' j', i = lineIdx axis n' j' → n' = n ∧ j' = j)

/-- R161, R162, R163: FWD1D, operation by operation in the order the rules fix, each with the ROM words of R141 and
its own NAN_OUT. -/
def Obligations.ForwardButterflyFormulas : Prop :=
  ∀ (nan : Nat → Word) (v0 v1 v2 v3 v4 v5 v6 v7 : Word),
    let s0 := fadd (nan 0) v0 v7
    let s1 := fadd (nan 1) v1 v6
    let s2 := fadd (nan 2) v2 v5
    let s3 := fadd (nan 3) v3 v4
    let m0 := fsub (nan 4) v0 v7
    let m1 := fsub (nan 5) v1 v6
    let m2 := fsub (nan 6) v2 v5
    let m3 := fsub (nan 7) v3 v4
    let ss1 := fadd (nan 8) s1 s2
    let ss2 := fadd (nan 9) s0 s3
    let mm1 := fsub (nan 10) s1 s2
    let mm2 := fsub (nan 11) s0 s3
    let K : Word := 0x3E000000
    let a1K : Word := 0x3E318A86
    let b1K : Word := 0x3E168317
    let c1K : Word := 0x3DC9234E
    let d1K : Word := 0x3D0D42AF
    let a2K : Word := 0x3E273D75
    let b2K : Word := 0x3D8A8BD4
    fwd1d nan #v[v0, v1, v2, v3, v4, v5, v6, v7] =
      #v[fmul (nan 13) (fadd (nan 12) ss2 ss1) K,
         fadd (nan 28) (fadd (nan 27) (fadd (nan 26) (fmul (nan 22) a1K m0) (fmul (nan 23) b1K m1))
           (fmul (nan 24) c1K m2)) (fmul (nan 25) d1K m3),
         fadd (nan 18) (fmul (nan 16) a2K mm2) (fmul (nan 17) b2K mm1),
         fsub (nan 35) (fsub (nan 34) (fsub (nan 33) (fmul (nan 29) b1K m0) (fmul (nan 30) d1K m1))
           (fmul (nan 31) a1K m2)) (fmul (nan 32) c1K m3),
         fmul (nan 15) (fsub (nan 14) ss2 ss1) K,
         fadd (nan 42) (fadd (nan 41) (fsub (nan 40) (fmul (nan 36) c1K m0) (fmul (nan 37) a1K m1))
           (fmul (nan 38) d1K m2)) (fmul (nan 39) b1K m3),
         fsub (nan 21) (fmul (nan 19) b2K mm2) (fmul (nan 20) a2K mm1),
         fsub (nan 49) (fadd (nan 48) (fsub (nan 47) (fmul (nan 43) d1K m0) (fmul (nan 44) c1K m1))
           (fmul (nan 45) b1K m2)) (fmul (nan 46) a1K m3)]

/-- R181, R182, R183, R184: INV1D, operation by operation in the order the rules fix, each with the ROM words of R141
and its own NAN_OUT. -/
def Obligations.InverseButterflyFormulas : Prop :=
  ∀ (nan : Nat → Word) (X0 X1 X2 X3 X4 X5 X6 X7 : Word),
    let a1 : Word := 0x3FB18A86
    let b1 : Word := 0x3F968317
    let c1 : Word := 0x3F49234E
    let d1 : Word := 0x3E8D42AF
    let a2 : Word := 0x3FA73D75
    let b2 : Word := 0x3F0A8BD4
    let s1 := fadd (nan 2) (fmul (nan 0) a2 X2) (fmul (nan 1) b2 X6)
    let s2 := fsub (nan 5) (fmul (nan 3) b2 X2) (fmul (nan 4) a2 X6)
    let m2 := fadd (nan 6) X0 X4
    let m1 := fsub (nan 7) X4 X0
    let ss1 := fadd (nan 8) m2 s1
    let mm1 := fsub (nan 9) m2 s1
    let ss2 := fsub (nan 10) (fneg s2) m1
    let mm2 := fsub (nan 11) s2 m1
    let k1 := fadd (nan 18) (fadd (nan 17) (fadd (nan 16) (fmul (nan 12) a1 X1) (fmul (nan 13) b1 X3))
      (fmul (nan 14) c1 X5)) (fmul (nan 15) d1 X7)
    let k2 := fsub (nan 25) (fsub (nan 24) (fsub (nan 23) (fmul (nan 19) b1 X1) (fmul (nan 20) d1 X3))
      (fmul (nan 21) a1 X5)) (fmul (nan 22) c1 X7)
    let k3 := fadd (nan 32) (fadd (nan 31) (fsub (nan 30) (fmul (nan 26) c1 X1) (fmul (nan 27) a1 X3))
      (fmul (nan 28) d1 X5)) (fmul (nan 29) b1 X7)
    let k4 := fsub (nan 39) (fadd (nan 38) (fsub (nan 37) (fmul (nan 33) d1 X1) (fmul (nan 34) c1 X3))
      (fmul (nan 35) b1 X5)) (fmul (nan 36) a1 X7)
    inv1d nan #v[X0, X1, X2, X3, X4, X5, X6, X7] =
      #v[fadd (nan 40) ss1 k1, fadd (nan 41) mm2 k2, fadd (nan 42) ss2 k3, fadd (nan 43) mm1 k4,
         fsub (nan 47) mm1 k4, fsub (nan 46) ss2 k3, fsub (nan 45) mm2 k2, fsub (nan 44) ss1 k1]

/-- R165: FDCT1 replaces the eight words of its line by FWD1D of them, all read first, each NAN_OUT being some NaN
word (R117); the other 56 words, STATUS and SEQ are kept; it completes in every state. -/
def Obligations.Fdct1TransformsItsLine : Prop :=
  ∀ (axis : Axis) (n : BitVec 3) (s : State),
    decode (0x40000000#32 + 8#32 * axis.code.setWidth 32 + n.setWidth 32) = .ok (.fdct1 axis n) ∧
    ∃ (nan : Nat → Word) (v : Vector Word 8) (t : State), Reference.NanSource nan ∧
      (∀ j, elem v j = readBlk s.blk (lineIdx axis n j)) ∧ exec (.fdct1 axis n) s = .next t ∧
      (∀ j, readBlk t.blk (lineIdx axis n j) = elem (fwd1d nan v) j) ∧
      (∀ i, (∀ j, i ≠ lineIdx axis n j) → readBlk t.blk i = readBlk s.blk i) ∧
      Answers t s.lat.line .ok 0 ∧ ShellKept s t ∧ t.seq = s.seq ∧ t.tmp.inv = s.tmp.inv

/-- R185: IDCT1 replaces the eight words of its line by INV1D of them, all read first, each NAN_OUT being some NaN
word (R117); nothing else of BLK, STATUS or SEQ changes; it completes in every state. -/
def Obligations.Idct1TransformsItsLine : Prop :=
  ∀ (axis : Axis) (n : BitVec 3) (s : State),
    decode (0x50000000#32 + 8#32 * axis.code.setWidth 32 + n.setWidth 32) = .ok (.idct1 axis n) ∧
    ∃ (nan : Nat → Word) (X : Vector Word 8) (t : State), Reference.NanSource nan ∧
      (∀ j, elem X j = readBlk s.blk (lineIdx axis n j)) ∧ exec (.idct1 axis n) s = .next t ∧
      (∀ j, readBlk t.blk (lineIdx axis n j) = elem (inv1d nan X) j) ∧
      (∀ i, (∀ j, i ≠ lineIdx axis n j) → readBlk t.blk i = readBlk s.blk i) ∧
      Answers t s.lat.line .ok 0 ∧ ShellKept s t ∧ t.seq = s.seq ∧ t.tmp.fwd = s.tmp.fwd

/-- R166: with exact arithmetic and the real constants, FWD1D is (1/8) * C * v. -/
def Obligations.ForwardIsTheDctMatrix : Prop :=
  ∀ (v : Vector ℝ 8) (k : Fin 8),
    (Reference.fwdReal v)[k] = 1 / 8 * ∑ n : Fin 8, Reference.basis k n * v[n]

/-- R186: with exact arithmetic and the real constants, INV1D is the transpose of C times X. -/
def Obligations.InverseIsTheTransposedMatrix : Prop :=
  ∀ (X : Vector ℝ 8) (n : Fin 8),
    (Reference.invReal X)[n] = ∑ k : Fin 8, Reference.basis k n * X[k]

/-- R187 over the reals: each line transform undoes the other. -/
def Obligations.RealRoundTripIsExact : Prop :=
  ∀ v : Vector ℝ 8,
    Reference.invReal (Reference.fwdReal v) = v ∧ Reference.fwdReal (Reference.invReal v) = v

/-- R168, R192: one datapath for both axes. The same eight words on any two lines, of any axes, give the same eight
words, for FDCT1 and for IDCT1 (with the same free NaN patterns, log 5). -/
def Obligations.OneDatapathForBothAxes : Prop :=
  ∀ (a a' : Axis) (n n' : BitVec 3) (s s' : State),
    s.draws = s'.draws →
    (∀ j, readBlk s.blk (lineIdx a n j) = readBlk s'.blk (lineIdx a' n' j)) →
    (∃ t t', exec (.fdct1 a n) s = .next t ∧ exec (.fdct1 a' n') s' = .next t' ∧
      ∀ j, readBlk t.blk (lineIdx a n j) = readBlk t'.blk (lineIdx a' n' j)) ∧
    (∃ t t', exec (.idct1 a n) s = .next t ∧ exec (.idct1 a' n') s' = .next t' ∧
      ∀ j, readBlk t.blk (lineIdx a n j) = readBlk t'.blk (lineIdx a' n' j))

/-- R203: two different lines of one axis are transformed in either order with the same block, bit for bit,
whatever function the line transform is, so for FWD1D and INV1D with any NaN patterns. -/
def Obligations.LinesOfOnePassCommute : Prop :=
  ∀ (f g : Vector Word 8 → Vector Word 8) (axis : Axis) (n m : BitVec 3) (b : Vector Word 64),
    n ≠ m → lineOn f axis n (lineOn g axis m b) = lineOn g axis m (lineOn f axis n b)

/-- R169 (a), R190 (a): a NaN at any one input makes all eight outputs NaN. -/
def Obligations.OneNanFillsTheLine : Prop :=
  ∀ (nan : Nat → Word) (v : Vector Word 8) (j : BitVec 3),
    Reference.NanSource nan → isNaN (elem v j) = true →
    AllNaN (fwd1d nan v) ∧ AllNaN (inv1d nan v)

/-- R167 (a): a line of eight equal finite words of magnitude at most MAXF/8 becomes that word and seven +0. -/
def Obligations.ConstantLineKeepsItsDcTerm : Prop :=
  ∀ (nan : Nat → Word) (c : Word),
    isFinite c = true → |Reference.val c| ≤ Reference.maxF / 8 →
    fwd1d nan (Vector.replicate 8 c) = #v[c, 0, 0, 0, 0, 0, 0, 0]

/-! ### The 2D commands -/

/-- R27: one step of the sequencer does the line of step `t` and moves on, or stops after step 15; and R202's
table: which line each of the sixteen steps does. -/
def Obligations.SequencerFollowsTheSchedule : Prop :=
  (∀ (s : State) (t : BitVec 4), s.seq = .run .fwd2 t →
    (seqStep s).blk =
      lineOn (fwd1d (nanDraw s.draws)) (if t.toNat < 8 then .rLine else .cLine)
        (BitVec.ofNat 3 (t.toNat % 8)) s.blk ∧
    (seqStep s).seq = (if t.toNat = 15 then .idle else .run .fwd2 (BitVec.ofNat 4 (t.toNat + 1)))) ∧
  (∀ (s : State) (t : BitVec 4), s.seq = .run .inv2 t →
    (seqStep s).blk =
      lineOn (inv1d (nanDraw s.draws)) (if t.toNat < 8 then .cLine else .rLine)
        (BitVec.ofNat 3 (t.toNat % 8)) s.blk ∧
    (seqStep s).seq = (if t.toNat = 15 then .idle else .run .inv2 (BitVec.ofNat 4 (t.toNat + 1))))

/-- R205: FDCT2 does to BLK what `FPASS R; FPASS C` do, IDCT2 what `IPASS C; IPASS R` do; one response instead of
sixteen. Both complete in every state, leave SEQ idle, and keep STATUS and the rest of the shell (R200, R201). That
the two blocks agree also in the bits of NaNs is the model's choice (log 5: both runs draw alike); R117 leaves them
free. -/
def Obligations.Transforms2dAreSixteenLineCommands : Prop :=
  ∀ s : State,
    (∃ t u, exec .fdct2 s = .next t ∧
      runProgram (Pseudo.expand (.fpass .rLine) ++ Pseudo.expand (.fpass .cLine)) s = .next u ∧
      t.blk = u.blk ∧
      u.taken = s.taken ++ List.replicate 16 { code := .ok, data := 0 } ∧
      Answers t s.lat.block .ok 0 ∧ ShellKept s t ∧ t.seq = .idle) ∧
    (∃ t u, exec .idct2 s = .next t ∧
      runProgram (Pseudo.expand (.ipass .cLine) ++ Pseudo.expand (.ipass .rLine)) s = .next u ∧
      t.blk = u.blk ∧
      u.taken = s.taken ++ List.replicate 16 { code := .ok, data := 0 } ∧
      Answers t s.lat.block .ok 0 ∧ ShellKept s t ∧ t.seq = .idle)

/-- R206 (c): FDCT2 of a block of 64 equal finite words `c`, |c| at most MAXF/8, gives `c` at index 0 and +0 at
the other 63. -/
def Obligations.ConstantBlockKeepsItsDcTerm : Prop :=
  ∀ (s : State) (c : Word),
    isFinite c = true → |Reference.val c| ≤ Reference.maxF / 8 → (∀ i, readBlk s.blk i = c) →
    ∃ t, exec .fdct2 s = .next t ∧ readBlk t.blk 0 = c ∧ ∀ i, i ≠ 0 → readBlk t.blk i = 0

/-- R201, corner case 2: IDCT2 of a block with a finite non-zero word `c` at index 0 and +0 elsewhere gives 64
words `c`. -/
def Obligations.DcTermFillsTheBlock : Prop :=
  ∀ (s : State) (c : Word),
    isFinite c = true → isZero c = false → readBlk s.blk 0 = c →
    (∀ i, i ≠ 0 → readBlk s.blk i = 0) →
    ∃ t, exec .idct2 s = .next t ∧ ∀ i, readBlk t.blk i = c

/-- R209, first sentence: one NaN word anywhere before FDCT2 or IDCT2 makes all 64 words NaN. -/
def Obligations.OneNanFillsTheBlock : Prop :=
  ∀ (s : State) (k : BitVec 6), isNaN (readBlk s.blk k) = true →
    (∃ t, exec .fdct2 s = .next t ∧ ∀ i, isNaN (readBlk t.blk i) = true) ∧
    (∃ t, exec .idct2 s = .next t ∧ ∀ i, isNaN (readBlk t.blk i) = true)

/-- R33, R124: what a transform command writes depends on the block and the operands alone, up to the free bits of
NaNs: not on STATUS, SEQ, TMP, the latch, the port, the latencies, or the draws made before. -/
def Obligations.TransformsDependOnTheBlockAlone : Prop :=
  ∀ (i : Instr) (s s' : State), isTransform i = true → SameBlock s.blk s'.blk →
    ∃ t t', exec i s = .next t ∧ exec i s' = .next t' ∧ SameBlock t.blk t'.blk

/-- R210: over the reals each pass of FDCT2 is a factor, pass 1 `C^T` on the right and pass 2 `C` on the left, with 1/8
each, so that FDCT2 is `(1/64) C M C^T`, entry by entry the double sum; IDCT2 is `C^T M C`, pass 1 the left factor and
pass 2 the right; the passes commute; `C` has `C^T C = C C^T = 8 I`; and IDCT2 undoes FDCT2. The schedule is the
machine's own `transformBlk`. -/
def Obligations.RealTransform2dIsTheMatrixForm : Prop :=
  Reference.dctMatrix.transpose * Reference.dctMatrix = (8 : ℝ) • (1 : Matrix (Fin 8) (Fin 8) ℝ) ∧
  Reference.dctMatrix * Reference.dctMatrix.transpose = (8 : ℝ) • (1 : Matrix (Fin 8) (Fin 8) ℝ) ∧
  ∀ b : Vector ℝ 64,
    let C := Reference.dctMatrix
    let M := Reference.blockMatrix b
    Reference.fwd2dReal b = Reference.fwdPassReal .cLine (Reference.fwdPassReal .rLine b) ∧
    Reference.blockMatrix (Reference.fwdPassReal .rLine b) = (1 / 8 : ℝ) • (M * C.transpose) ∧
    Reference.blockMatrix (Reference.fwdPassReal .cLine b) = (1 / 8 : ℝ) • (C * M) ∧
    Reference.blockMatrix (Reference.fwd2dReal b) = (1 / 64 : ℝ) • (C * M * C.transpose) ∧
    (∀ l k : Fin 8, Reference.blockMatrix (Reference.fwd2dReal b) l k =
      1 / 64 * ∑ c : Fin 8, ∑ r : Fin 8, C l c * C k r * M c r) ∧
    Reference.inv2dReal b = Reference.invPassReal .rLine (Reference.invPassReal .cLine b) ∧
    Reference.blockMatrix (Reference.invPassReal .cLine b) = C.transpose * M ∧
    Reference.blockMatrix (Reference.invPassReal .rLine b) = M * C ∧
    Reference.blockMatrix (Reference.inv2dReal b) = C.transpose * M * C ∧
    Reference.inv2dReal (Reference.fwd2dReal b) = b ∧
    Reference.fwdPassReal .rLine (Reference.fwdPassReal .cLine b) =
      Reference.fwdPassReal .cLine (Reference.fwdPassReal .rLine b) ∧
    Reference.invPassReal .rLine (Reference.invPassReal .cLine b) =
      Reference.invPassReal .cLine (Reference.invPassReal .rLine b)

/-! ### Arithmetic (40_numerics.md) -/

/-- R111: the model's rounding, in whole numbers of units of 2^-149, is `RNE` over the rationals, line by line. -/
def Obligations.RoundingIsRne : Prop :=
  ∀ (s : Bool) (num den : ℕ) (zs : Bool), 0 < den →
    rne s num den zs = Reference.rne (unitsVal s num den) zs

/-- R111 is rounding to nearest, ties to even: no finite word is nearer to the exact value than a finite result,
and on a tie with another value the result's fraction is even. -/
def Obligations.RoundingIsNearestEven : Prop :=
  ∀ (s : Bool) (num den : ℕ) (zs : Bool) (w : Word), 0 < num → 0 < den →
    isFinite (rne s num den zs) = true → isFinite w = true →
    |Reference.val (rne s num den zs) - unitsVal s num den| ≤ |Reference.val w - unitsVal s num den| ∧
    (Reference.val w ≠ Reference.val (rne s num den zs) →
      |Reference.val (rne s num den zs) - unitsVal s num den| = |Reference.val w - unitsVal s num den| →
      fracField (rne s num den zs) % 2 = 0)

/-- R111, first consequence: the rounded result is infinite iff |x| >= OVF = 2^128 - 2^103, which is
2^277 - 2^252 units; and an infinite result has the sign of x. -/
def Obligations.OverflowThreshold : Prop :=
  ∀ (s : Bool) (num den : ℕ) (zs : Bool), 0 < den →
    (isInf (rne s num den zs) = true ↔ (2 ^ 277 - 2 ^ 252) * den ≤ num) ∧
    (isInf (rne s num den zs) = true → signBit (rne s num den zs) = s)

/-- R112: `fadd` is the function of R112, line by line over the rationals, for every pair of words; it is
commutative whenever the result is not a NaN, and it is not associative. -/
def Obligations.FaddIsR112 : Prop :=
  (∀ nan x y : Word, fadd nan x y = Reference.fadd nan x y) ∧
  (∀ nan nan' x y : Word, isNaN nan = true → isNaN (fadd nan x y) = false →
    fadd nan x y = fadd nan' y x) ∧
  (∀ nan : Word, fadd nan (fadd nan 0x3F800000 0x33800000) 0x33800000 ≠
    fadd nan 0x3F800000 (fadd nan 0x33800000 0x33800000))

/-- R114: `fmul` is the function of R114, line by line over the rationals, for every pair of words; and it is
commutative whenever the result is not a NaN. -/
def Obligations.FmulIsR114 : Prop :=
  (∀ nan x y : Word, fmul nan x y = Reference.fmul nan x y) ∧
  (∀ nan nan' x y : Word, isNaN nan = true → isNaN (fmul nan x y) = false →
    fmul nan x y = fmul nan' y x)

/-- R113: `fsub(x, y) = fadd(x, fneg(y))` unless `y` is a NaN; `a - a = +0` for every finite `a`; and the four
zero and infinity cases of the rule. -/
def Obligations.FsubIsAdditionOfTheNegated : Prop :=
  (∀ nan x y : Word, isNaN y = false → fsub nan x y = fadd nan x (fneg y)) ∧
  (∀ nan x y : Word, isNaN y = true → fsub nan x y = nan) ∧
  (∀ nan a : Word, isFinite a = true → fsub nan a a = 0) ∧
  (∀ nan : Word, fsub nan 0x00000000 0x00000000 = 0x00000000 ∧
    fsub nan 0x80000000 0x00000000 = 0x80000000 ∧ fsub nan 0x00000000 0x80000000 = 0x00000000 ∧
    fsub nan 0x7F800000 0x7F800000 = nan ∧ fsub nan 0xFF800000 0xFF800000 = nan)

/-- R115: `fneg` flips bit 31 and nothing else, for every word. -/
def Obligations.FnegFlipsBit31 : Prop :=
  ∀ x : Word, (fneg x).getLsbD 31 = !x.getLsbD 31 ∧
    ∀ i, i < 31 → (fneg x).getLsbD i = x.getLsbD i

/-- R117: a drawn NAN_OUT is some NaN word, and every NaN word is one that could be drawn. -/
def Obligations.NanPatternsAreAllAndOnlyNans : Prop :=
  (∀ d i : Nat, isNaN (nanDraw d i) = true) ∧
  (∀ w : Word, isNaN w = true → ∃ free : Word, nanWord free = w)

/-- R117, R124: only that an operation gives a NaN matters, never its bits: two line transforms of lines equal up to
NaN bits, with any two sources of NaN patterns, give lines equal up to NaN bits. -/
def Obligations.NanBitsNeverMatter : Prop :=
  ∀ (nan nan' : Nat → Word) (v v' : Vector Word 8),
    Reference.NanSource nan → Reference.NanSource nan' →
    (∀ j, Reference.SameOrNaN (elem v j) (elem v' j)) →
    (∀ j, Reference.SameOrNaN (elem (fwd1d nan v) j) (elem (fwd1d nan' v') j)) ∧
    (∀ j, Reference.SameOrNaN (elem (inv1d nan v) j) (elem (inv1d nan' v') j))

/-- R120, first case: multiplying by a K-scaled constant is multiplying by the constant and then by K, where the
exact product is zero or between 2^-123 and the overflow threshold. -/
def Obligations.ScalingByKCommutesWithRounding : Prop :=
  ∀ (nan x : Word) (i : Fin 6), isFinite x = true →
    (Reference.val (romTable[i.val]) * Reference.val x = 0 ∨
      ((2 : ℚ) ^ (-123 : ℤ) ≤ |Reference.val (romTable[i.val]) * Reference.val x| ∧
        |Reference.val (romTable[i.val]) * Reference.val x| < 2 ^ 128 - 2 ^ 103)) →
    fmul nan (romTable[i.val + 7]) x = fmul nan (fmul nan (romTable[i.val]) x) romTable[6]

/-! ### The ROM (41_basis_rom.md) -/

/-- R141, R145: the thirteen words, and no word in the reserved slots. -/
def Obligations.RomHoldsTheThirteenWords : Prop :=
  ((List.range 16).map fun k => romSlot (BitVec.ofNat 4 k)) =
    [some 0x3FB18A86, some 0x3F968317, some 0x3F49234E, some 0x3E8D42AF, some 0x3FA73D75,
     some 0x3F0A8BD4, some 0x3E000000, some 0x3E318A86, some 0x3E168317, some 0x3DC9234E,
     some 0x3D0D42AF, some 0x3E273D75, some 0x3D8A8BD4, none, none, none]

/-- R144: each K-scaled word is the exact product of its constant and K, and its bits are the constant's less
0x01800000. -/
def Obligations.ScaledRomWordsAreExactEighths : Prop :=
  ∀ (nan : Word) (i : Fin 6),
    romTable[i.val + 7] = fmul nan (romTable[i.val]) romTable[6] ∧
    Reference.val (romTable[i.val + 7]) = Reference.val (romTable[i.val]) / 8 ∧
    romTable[i.val + 7] = romTable[i.val] - 0x01800000#32

/-- R141, R142: each of the six words is within half a unit in its last place of `sqrt(2)*cos(j*pi/16)`. -/
def Obligations.RomWordsRoundTheirConstants : Prop :=
  ∀ i : Fin 6,
    |((Reference.val romTable[i.val] : ℚ) : ℝ) - Reference.realRom[i.val]| ≤
      (2 : ℝ) ^ ((expField romTable[i.val] : ℤ) - 151)

/-! ### IllegalCommand and STATUS (60_exceptions.md) -/

/-- R240: an accepted illegal word sets ILL, answers (1, 0), and does nothing else. -/
def Obligations.IllegalCommandSetsIllAndAnswers : Prop :=
  ∀ (c : Cmd) (e : Illegal) (s : State), decode c.word = .error e →
    ∃ t, accept c s = .next t ∧ t.ill = true ∧
      (∀ b, 0 < b → t.status.getLsbD b = s.status.getLsbD b) ∧
      Answers t s.lat.illegal .illegal 0 ∧ DatapathKept s t ∧ t.seq = s.seq ∧
      t.cmd = c ∧ t.taken = s.taken ∧ t.inputs = s.inputs ∧ t.lat = s.lat

/-- R242: every decoded command completes with code 0 and leaves ILL alone, whatever BLK and the data word
hold. -/
def Obligations.LegalCommandsAnswerOk : Prop :=
  ∀ (c : Cmd) (i : Instr) (s : State), decode c.word = .ok i →
    ∃ t data, accept c s = .next t ∧ Answers t (latencyOf s.lat c.word) .ok data ∧
      t.status = s.status

/-- R25, R246: ILL is sticky. A step changes it from 0 to 1 only by accepting an illegal word, and from 1 to 0 only
by reset. That it changes on the accepting edge, and not later in the busy period, is the model's choice (log 2): R57
lets it be set until `rsp_valid` is 1. -/
def Obligations.IllIsStickyUntilReset : Prop :=
  ∀ s t : State, step s = .next t →
    (s.ill = false → t.ill = true →
      s.port = .idle ∧ s.nextInput.rst = false ∧ s.nextInput.cmdValid = true ∧
        isLegal s.nextInput.cmdWord = false) ∧
    (s.ill = true → t.ill = false → s.nextInput.rst = true)

/-- R246: commands after an illegal one execute normally: but for RDST, which reports it, ILL alters no command's
effect. -/
def Obligations.IllAltersNoCommand : Prop :=
  ∀ (i : Instr) (s : State), i ≠ .rdst →
    ∃ t, exec i s = .next t ∧ exec i s.setIll = .next t.setIll

/-! ### The port, the step, reset -/

/-- A step of an idle core to which a well-formed command is presented, with no reset, is `exec` of the decoded
command, after the host's signals are used up and the pair is sampled (R52, R84); and `withFetchWord` presents
exactly its word (log 11). That the command's whole effect falls on this accepting edge is the model's choice
(log 2): R57 leaves open when its writes land. -/
def Obligations.StepRunsThePresentedCommand : Prop :=
  (∀ (s : State) (i : Instr), s.port = .idle → s.nextInput.rst = false →
    s.nextInput.cmdValid = true → decode s.nextInput.cmdWord = .ok i →
    step s = exec i { s with
      inputs := s.inputs.tail
      cmd := { word := s.nextInput.cmdWord, data := s.nextInput.cmdData } }) ∧
  (∀ (s : State) (nbits w : Nat) (i : Instr), decodeTableWord nbits w = some i →
    step (s.withFetchWord nbits w) = exec i { s with
      port := .idle
      cmd := { word := BitVec.ofNat 32 w, data := 0 } })

/-- R254: the core is never stuck, and no step of this machine is a fault or a refusal. -/
def Obligations.EveryStepCompletes : Prop := ∀ s : State, ∃ t, step s = .next t

/-- R90: the data word of every command but WRB, legal or illegal, changes nothing but the latch that samples
it. -/
def Obligations.DataWordIsIgnoredButByWrb : Prop :=
  ∀ (w d d' : Word) (s : State), (∀ idx, decode w ≠ .ok (.wrb idx)) →
    ∃ t t', accept { word := w, data := d } s = .next t ∧
      accept { word := w, data := d' } s = .next t' ∧ { t with cmd := t'.cmd } = t'

/-- R52, R53, R56, R57: while the core is busy, an edge without reset counts down to the response, then holds it until
the host takes it, with its code (OK 0, ILLEGAL 1) and data on the port; a presented command changes nothing. That
BLK, TMP, STATUS and SEQ are kept also on an edge with cycles still left is the model's choice (log 2: R57 lets a
command's writes land until `rsp_valid` is 1), and so is the record `taken` (log 12). -/
def Obligations.BusyCoreOnlyAnswers : Prop :=
  RspCode.ok.bits = 0 ∧ RspCode.illegal.bits = 1 ∧
  ∀ (s : State) (wait : Nat) (r : Response), s.port = .busy wait r → s.nextInput.rst = false →
    s.cmdReady = false ∧
    (0 < wait → s.rspCode = none ∧ s.rspData = none) ∧
    (wait = 0 → s.rspCode = some r.code.bits ∧ s.rspData = some r.data) ∧
    ∃ t, step s = .next t ∧ DatapathKept s t ∧ t.status = s.status ∧ t.seq = s.seq ∧ t.cmd = s.cmd ∧
      t.lat = s.lat ∧ t.inputs = s.inputs.tail ∧
      (0 < wait → s.rspValid = false ∧ t.port = .busy (wait - 1) r ∧ t.taken = s.taken) ∧
      (wait = 0 → s.rspValid = true ∧
        (s.nextInput.rspReady = false → t.port = .busy 0 r ∧ t.taken = s.taken) ∧
        (s.nextInput.rspReady = true → t.port = .idle ∧ t.taken = s.taken ++ [r]))

/-- R270: an edge with `rst = 1` resets the core whatever else is presented and whatever it was doing: STATUS 0, SEQ
idle, no response pending, ready for a command; the latencies are kept. What it leaves in BLK is the model's free
values (log 4), of which nothing is said. Two clauses are the model's own: that `cmd_ready` is 1 in the cycle after
such an edge also while `rst` is still held (log 19; the rules say so of the time after release only), and that a
new record begins (log 12). -/
def Obligations.ResetWinsOverEverything : Prop :=
  ∀ s : State, s.nextInput.rst = true →
    ∃ t, step s = .next t ∧ t.status = 0 ∧ t.seq = .idle ∧ t.port = .idle ∧ t.cmdReady = true ∧
      t.rspValid = false ∧ t.taken = [] ∧ t.lat = s.lat ∧ t.inputs = s.inputs.tail

/-- R32, the values the rule gives, at `State.reset`, and that it is a legal state. (BLK and TMP are the model's
choice there, log 3 and log 6, and nothing is said of them.) -/
def Obligations.ResetStateIsLegal : Prop :=
  State.reset.status = 0 ∧ State.reset.ill = false ∧ State.reset.seq = .idle ∧
  State.reset.cmdReady = true ∧ State.reset.rspValid = false ∧ State.reset.legal = true

/-- Every step from a legal state leads to a legal state: STATUS[31:1] stays 0 (R25), SEQ is idle between commands
(R27), a pending ILLEGAL response has data 0 and ILL set (R56, R240), latencies stay positive (R277). Two parts are the
model's choice (log 2; R27 and R57 allow otherwise): SEQ is idle also while a 2D command is busy, and ILL is set
already while the ILLEGAL response still waits. -/
def Obligations.StepKeepsLegal : Prop :=
  ∀ s t : State, s.legal = true → step s = .next t → t.legal = true

/-- R21, R62: a step changes the block store only by reset, or by accepting WRB or a transform. That no edge of a
busy period changes it is the model's choice (log 2): R57 lets a command's writes land until `rsp_valid` is 1. -/
def Obligations.BlockChangesOnlyByItsWriters : Prop :=
  ∀ s t : State, step s = .next t → t.blk ≠ s.blk →
    s.nextInput.rst = true ∨
    (s.port = .idle ∧ s.nextInput.cmdValid = true ∧
      ∃ i, decode s.nextInput.cmdWord = .ok i ∧ writesBlock i = true)

/-- R55, R277, R278: every accepted command, legal or not, is answered once, after the latency of its command word,
which depends on nothing else. -/
def Obligations.LatencyDependsOnTheWordAlone : Prop :=
  ∀ (c : Cmd) (s : State),
    ∃ t code data, accept c s = .next t ∧ Answers t (latencyOf s.lat c.word) code data

/-- R53 to R57: clock edge by clock edge, a command presented to an idle core, a pause of the host and then
`rsp_ready` held long enough are exactly the one transaction: the same final state, the response taken once, and no
later edge of the script does anything. That exactly the latency is long enough is the model's reading of R277's count
(log 7). -/
def Obligations.ClockedCommandIsOneTransaction : Prop :=
  ∀ (c : Cmd) (pause hold : Nat) (rest : List EdgeIn) (s : State),
    s.port = .idle → s.inputs = commandScript c pause hold ++ rest → 1 ≤ hold →
    latencyOf s.lat c.word ≤ pause + hold →
    Host.Core.run core (1 + pause + hold) s = transaction c { s with inputs := rest }

/-- R54, R55, R56, R279: every list of commands runs to its end, with one response per command, in order after the
earlier ones, ILLEGAL with data 0 for each illegal word and OK for each legal one, and the core idle again. -/
def Obligations.ProgramsAnswerEveryCommand : Prop :=
  ∀ (cs : List Cmd) (s : State), s.port = .idle →
    ∃ t rs, runProgram cs s = .next t ∧ t.taken = s.taken ++ rs ∧ rs.length = cs.length ∧
      (rs.map fun r => r.code) = (cs.map fun c => if isLegal c.word then RspCode.ok else .illegal) ∧
      (∀ r ∈ rs, r.code = .illegal → r.data = 0) ∧
      t.port = .idle ∧ t.inputs = s.inputs ∧ t.lat = s.lat

/-- R225, R89: LDBLK then RDBLK answers 64 times OK 0 and then the 64 words in index order, bit for bit, and leaves
exactly those words in the block store. -/
def Obligations.LoadThenReadBack : Prop :=
  ∀ (ws : Vector Word 64) (s : State),
    ∃ t, runProgram (Pseudo.expand (.ldblk ws) ++ Pseudo.expand .rdblk) s = .next t ∧
      t.blk = ws ∧ t.status = s.status ∧
      t.taken = s.taken ++
        (List.replicate 64 { code := .ok, data := 0 } ++
          allIndices.map fun i => { code := .ok, data := readBlk ws i })

/-- R88: but for `.word`, every line the assembler accepts stands for legal command words only, with the data word 0
unless the command is WRB. -/
def Obligations.AssemblerEmitsLegalCommands : Prop :=
  ∀ (mnemonic : List Char) (ops : List (List Char)) (l : AsmLine),
    parseStatement mnemonic ops = some l → (∀ w, l ≠ .raw w) →
    ∀ c ∈ l.cmds, isLegal c.word = true ∧
      ((∀ idx, decode c.word ≠ .ok (.wrb idx)) → c.data = 0)

/-- R70: a step of core `i` moves it exactly as its own state alone would move, whatever the other cores hold; it
leaves every other core's state alone, and there are as many cores as before. (Free values of different cores:
log 20; one core moves per system step: log 15.) -/
def Obligations.CoresDoNotInteract : Prop :=
  ∀ (i : Nat) (y : System), ∃ y', systemStep i y = .next y' ∧ y'.length = y.length ∧
    (∀ s, y[i]? = some s → ∃ t, step s = .next t ∧ y'[i]? = some t) ∧
    ∀ j, j ≠ i → y'[j]? = y[j]?
end

