-- ==== Sys2Proof/Laws/Numerics.lean ====
section
/-! SUPPORT. What the arithmetic can do, said once: the fields of a packed word, the class of a rounded word, and
each operation by the classes of its operands. Later proofs cite these instead of unfolding the operations. -/

namespace Sys2Proof.Machine

theorem fracField_lt (w : Word) : fracField w < 2 ^ 23 := (w.extractLsb' 0 23).isLt

theorem expField_lt (w : Word) : expField w < 2 ^ 8 := (w.extractLsb' 23 8).isLt

/-- The three fields of a word as parts of its number. -/
theorem fields_toNat (w : Word) :
    w.toNat = (if signBit w then 2 ^ 31 else 0) + expField w * 2 ^ 23 + fracField w := by
  have hb := w.isLt
  have hs : signBit w = decide (2 ^ 31 ≤ w.toNat) := by
    rw [signBit, BitVec.getLsbD, Nat.testBit_eq_decide_div_mod_eq]
    congr 1
    simp only [eq_iff_iff]
    omega
  have he : expField w = w.toNat / 2 ^ 23 % 2 ^ 8 := by
    simp [expField, BitVec.extractLsb'_toNat, Nat.shiftRight_eq_div_pow]
  have hf : fracField w = w.toNat % 2 ^ 23 := by
    simp [fracField, BitVec.extractLsb'_toNat]
  rw [hs, he, hf]
  by_cases h : 2 ^ 31 ≤ w.toNat <;> simp only [h, decide_true, decide_false, if_true, if_false, Bool.false_eq_true] <;>
    omega

/-- Two words with the same fields are one. -/
theorem fields_ext {a b : Word} (hs : signBit a = signBit b) (he : expField a = expField b)
    (hf : fracField a = fracField b) : a = b :=
  BitVec.eq_of_toNat_eq (by rw [fields_toNat a, fields_toNat b, hs, he, hf])

theorem packWord_toNat (s : Bool) {e f : Nat} (he : e < 2 ^ 8) (hf : f < 2 ^ 23) :
    (packWord s e f).toNat = (if s then 2 ^ 31 else 0) + e * 2 ^ 23 + f := by
  rw [packWord, BitVec.toNat_ofNat, Nat.mod_eq_of_lt]
  cases s <;> simp <;> omega

theorem packWord_fields (s : Bool) {e f : Nat} (he : e < 2 ^ 8) (hf : f < 2 ^ 23) :
    signBit (packWord s e f) = s ∧ expField (packWord s e f) = e ∧ fracField (packWord s e f) = f := by
  have h := (fields_toNat (packWord s e f)).symm.trans (packWord_toNat s he hf)
  have h1 := expField_lt (packWord s e f)
  have h2 := fracField_lt (packWord s e f)
  generalize expField (packWord s e f) = e', fracField (packWord s e f) = f' at *
  cases s <;> cases hs : signBit (packWord _ e f) <;> simp [hs] at h ⊢ <;> omega

/-- A word is its fields packed. -/
theorem packWord_of_fields (w : Word) : packWord (signBit w) (expField w) (fracField w) = w := by
  obtain ⟨h1, h2, h3⟩ := packWord_fields (signBit w) (expField_lt w) (fracField_lt w)
  exact fields_ext h1 h2 h3

theorem isNaN_iff (w : Word) : isNaN w = true ↔ expField w = 255 ∧ fracField w ≠ 0 := by
  simp [isNaN]

theorem isInf_iff (w : Word) : isInf w = true ↔ expField w = 255 ∧ fracField w = 0 := by
  simp [isInf]

theorem isZero_iff (w : Word) : isZero w = true ↔ expField w = 0 ∧ fracField w = 0 := by
  simp [isZero]

theorem isFinite_iff (w : Word) : isFinite w = true ↔ expField w ≠ 255 := by
  simp [isFinite]

/-- A word is a NaN, an infinity, or finite. -/
theorem class_cases (w : Word) :
    (isNaN w = true ∧ isInf w = false ∧ isFinite w = false) ∨
    (isNaN w = false ∧ isInf w = true ∧ isFinite w = false) ∨
    (isNaN w = false ∧ isInf w = false ∧ isFinite w = true) := by
  by_cases h : expField w = 255 <;> by_cases k : fracField w = 0 <;>
    simp [isNaN, isInf, isFinite, h, k]

theorem isFinite_of_isZero {w : Word} (h : isZero w = true) : isFinite w = true := by
  rw [isZero_iff] at h
  simp [isFinite, h.1]

/-- A word is zero exactly when its magnitude is no units at all. -/
theorem magUnits_eq_zero_iff (w : Word) : magUnits w = 0 ↔ isZero w = true := by
  rw [isZero_iff, magUnits]
  split
  · next h => simp [h]
  · next h => simp [h]

theorem isNaN_nanWord (free : Word) : isNaN (nanWord free) = true := by
  have hf : (if fracField free = 0 then 2 ^ 22 else fracField free) < 2 ^ 23 := by
    have := fracField_lt free
    split <;> omega
  obtain ⟨_, h2, h3⟩ := packWord_fields (signBit free) (e := 255) (by omega) hf
  rw [isNaN_iff, nanWord]
  refine ⟨h2, ?_⟩
  rw [h3]
  split <;> omega

theorem isNaN_nanDraw (d i : Nat) : isNaN (nanDraw d i) = true := isNaN_nanWord _

theorem isNaN_infWord (s : Bool) : isNaN (infWord s) = false := by
  cases s <;> decide

theorem isNaN_zeroWord (s : Bool) : isNaN (zeroWord s) = false := by
  cases s <;> decide

theorem roundedWord_isNaN {s : Bool} {L mi : Nat} (hL : 23 ≤ L) (hm : mi ≤ 2 ^ 24) :
    isNaN (roundedWord s L mi) = false := by
  have pack (e f : Nat) (he : e < 255) (hf : f < 2 ^ 23) : isNaN (packWord s e f) = false := by
    obtain ⟨_, h2, _⟩ := packWord_fields s (e := e) (by omega) hf
    rw [isNaN, h2]
    have : (e == 255) = false := by simp; omega
    rw [this]; rfl
  unfold roundedWord
  split
  · split
    · exact isNaN_infWord s
    · exact pack _ _ (by omega) (by omega)
  · split
    · exact isNaN_infWord s
    · split
      · exact pack _ _ (by omega) (by omega)
      · exact pack _ _ (by omega) (by omega)

/-- The quantum is large enough for a significand of 24 bits. -/
theorem quantum_bound (num : Nat) {den : Nat} (hd : 0 < den) :
    num < 2 ^ 24 * (den * 2 ^ (quantumLog num den - 23)) := by
  have h1 : num / den < 2 ^ (Nat.log2 (num / den) + 1) := Nat.lt_log2_self
  have h2 : Nat.log2 (num / den) + 1 ≤ 24 + (quantumLog num den - 23) := by
    unfold quantumLog; omega
  have h3 : num / den < 2 ^ (24 + (quantumLog num den - 23)) :=
    lt_of_lt_of_le h1 (Nat.pow_le_pow_right (by omega) h2)
  have h4 := (Nat.div_lt_iff_lt_mul hd).mp h3
  calc num < 2 ^ (24 + (quantumLog num den - 23)) * den := h4
    _ = 2 ^ 24 * (den * 2 ^ (quantumLog num den - 23)) := by rw [pow_add]; ring

theorem nearestEven_le {num q b : Nat} (h : num < b * q) : nearestEven num q ≤ b := by
  have hq : num / q < b := Nat.div_lt_of_lt_mul (by rwa [Nat.mul_comm] at h)
  unfold nearestEven
  split <;> omega

/-- Rounding never gives a NaN. -/
theorem isNaN_rne (s : Bool) (num : Nat) {den : Nat} (zs : Bool) (hd : 0 < den) :
    isNaN (rne s num den zs) = false := by
  unfold rne
  split
  · exact isNaN_zeroWord zs
  · exact roundedWord_isNaN (by unfold quantumLog; omega) (nearestEven_le (quantum_bound num hd))

@[simp] theorem fneg_fneg (x : Word) : fneg (fneg x) = x := by
  simp [fneg]

theorem fneg_fields (x : Word) :
    signBit (fneg x) = !signBit x ∧ expField (fneg x) = expField x ∧ fracField (fneg x) = fracField x := by
  have e : (0x80000000#32).extractLsb' 23 8 = 0#8 := by decide
  have f : (0x80000000#32).extractLsb' 0 23 = 0#23 := by decide
  refine ⟨by simp [signBit, fneg], ?_, ?_⟩
  · rw [expField, fneg, BitVec.extractLsb'_xor, e, BitVec.xor_zero, expField]
  · rw [fracField, fneg, BitVec.extractLsb'_xor, f, BitVec.xor_zero, fracField]

@[simp] theorem isNaN_fneg (x : Word) : isNaN (fneg x) = isNaN x := by
  obtain ⟨_, h2, h3⟩ := fneg_fields x
  simp [isNaN, h2, h3]

@[simp] theorem isInf_fneg (x : Word) : isInf (fneg x) = isInf x := by
  obtain ⟨_, h2, h3⟩ := fneg_fields x
  simp [isInf, h2, h3]

@[simp] theorem isFinite_fneg (x : Word) : isFinite (fneg x) = isFinite x := by
  obtain ⟨_, h2, _⟩ := fneg_fields x
  simp [isFinite, h2]

@[simp] theorem valUnits_fneg (x : Word) : valUnits (fneg x) = -valUnits x := by
  obtain ⟨h1, h2, h3⟩ := fneg_fields x
  have hm : magUnits (fneg x) = magUnits x := by simp [magUnits, h2, h3]
  rw [valUnits, valUnits, h1, hm]
  cases signBit x <;> simp

/-! ### The operations by the classes of their operands -/

theorem fadd_nan {nan x y : Word} (h : isNaN x = true ∨ isNaN y = true) : fadd nan x y = nan := by
  rcases h with h | h <;> simp [fadd, h]

theorem fsub_nan {nan x y : Word} (h : isNaN x = true ∨ isNaN y = true) : fsub nan x y = nan := by
  unfold fsub
  split
  · rfl
  · next k => exact fadd_nan (h.elim .inl fun h => absurd h k)

theorem fmul_nan {nan x y : Word} (h : isNaN x = true ∨ isNaN y = true) : fmul nan x y = nan := by
  rcases h with h | h <;> simp [fmul, h]

theorem isNaN_of_isFinite {x : Word} (h : isFinite x = true) : isNaN x = false := by
  simp_all [isFinite, isNaN]

theorem isInf_of_isFinite {x : Word} (h : isFinite x = true) : isInf x = false := by
  simp_all [isFinite, isInf]

/-- The sum of two finite words: rounded once, an exact zero by the sign rule of R112. -/
theorem fadd_finite {nan x y : Word} (hx : isFinite x = true) (hy : isFinite y = true) :
    fadd nan x y =
      if valUnits x + valUnits y = 0 then zeroWord (signBit x && signBit y)
      else rne (decide (valUnits x + valUnits y < 0)) (valUnits x + valUnits y).natAbs 1 false := by
  simp [fadd, isNaN_of_isFinite, isInf_of_isFinite, hx, hy]

theorem fsub_finite {nan x y : Word} (hy : isFinite y = true) :
    fsub nan x y = fadd nan x (fneg y) := by
  simp [fsub, isNaN_of_isFinite hy]

/-- The product of two finite words: rounded once. -/
theorem fmul_finite {nan x y : Word} (hx : isFinite x = true) (hy : isFinite y = true) :
    fmul nan x y =
      rne (signBit x != signBit y) (magUnits x * magUnits y) (2 ^ 149) (signBit x != signBit y) := by
  simp [fmul, isNaN_of_isFinite, isInf_of_isFinite, hx, hy]

/-- A sum is a NaN only as R112 says; then it is NAN_OUT, and else it does not depend on NAN_OUT. -/
theorem fadd_cases (x y : Word) :
    (∀ nan, fadd nan x y = nan) ∨ ∃ w, isNaN w = false ∧ ∀ nan, fadd nan x y = w := by
  unfold fadd
  split
  · exact .inl fun _ => rfl
  · next h =>
    simp only [Bool.or_eq_true, not_or, Bool.not_eq_true] at h
    split
    · exact .inl fun _ => rfl
    · split
      · exact .inr ⟨x, h.1, fun _ => rfl⟩
      · split
        · exact .inr ⟨y, h.2, fun _ => rfl⟩
        · split
          · exact .inr ⟨_, isNaN_zeroWord _, fun _ => rfl⟩
          · exact .inr ⟨_, isNaN_rne _ _ _ (by omega), fun _ => rfl⟩

theorem fsub_cases (x y : Word) :
    (∀ nan, fsub nan x y = nan) ∨ ∃ w, isNaN w = false ∧ ∀ nan, fsub nan x y = w := by
  unfold fsub
  split
  · exact .inl fun _ => rfl
  · exact fadd_cases x (fneg y)

theorem fmul_cases (x y : Word) :
    (∀ nan, fmul nan x y = nan) ∨ ∃ w, isNaN w = false ∧ ∀ nan, fmul nan x y = w := by
  unfold fmul
  split
  · exact .inl fun _ => rfl
  · split
    · exact .inl fun _ => rfl
    · split
      · exact .inr ⟨_, isNaN_infWord _, fun _ => rfl⟩
      · exact .inr ⟨_, isNaN_rne _ _ _ (by positivity), fun _ => rfl⟩

end Sys2Proof.Machine
end

