-- ==== Sys2Proof/Laws/NanFlow.lean ====
section
/-! SUPPORT. How NaNs flow through one operation (spec/40_numerics.md R112 to R114, R117): each operation keeps
equality up to NaN bits, whatever its NAN_OUT. -/

namespace Sys2Proof.Machine

open Sys2Proof.Reference

theorem sameOrNaN_refl (x : Word) : SameOrNaN x x := .inl rfl

theorem isNaN_eq_of_sameOrNaN {x y : Word} (h : SameOrNaN x y) : isNaN x = isNaN y := by
  rcases h with rfl | ⟨h1, h2⟩
  · rfl
  · rw [h1, h2]

/-- An operation that gives its NAN_OUT on a NaN operand, and else its NAN_OUT or one word that is no NaN, keeps
equality up to NaN bits. -/
theorem sameOrNaN_of_cases {op : Word → Word → Word → Word}
    (hn : ∀ {nan x y : Word}, isNaN x = true ∨ isNaN y = true → op nan x y = nan)
    (hc : ∀ x y, (∀ nan, op nan x y = nan) ∨ ∃ w, isNaN w = false ∧ ∀ nan, op nan x y = w)
    {nan nan' x x' y y' : Word} (h1 : isNaN nan = true) (h2 : isNaN nan' = true)
    (hx : SameOrNaN x x') (hy : SameOrNaN y y') : SameOrNaN (op nan x y) (op nan' x' y') := by
  rcases hx with rfl | ⟨hx, hx'⟩
  · rcases hy with rfl | ⟨hy, hy'⟩
    · rcases hc x y with h | ⟨w, _, h⟩
      · exact .inr ⟨by rw [h]; exact h1, by rw [h]; exact h2⟩
      · exact .inl (by rw [h, h])
    · exact .inr ⟨by rw [hn (.inr hy)]; exact h1, by rw [hn (.inr hy')]; exact h2⟩
  · exact .inr ⟨by rw [hn (.inl hx)]; exact h1, by rw [hn (.inl hx')]; exact h2⟩

theorem sameOrNaN_fadd {nan nan' x x' y y' : Word} (h1 : isNaN nan = true) (h2 : isNaN nan' = true)
    (hx : SameOrNaN x x') (hy : SameOrNaN y y') : SameOrNaN (fadd nan x y) (fadd nan' x' y') :=
  sameOrNaN_of_cases fadd_nan fadd_cases h1 h2 hx hy

theorem sameOrNaN_fsub {nan nan' x x' y y' : Word} (h1 : isNaN nan = true) (h2 : isNaN nan' = true)
    (hx : SameOrNaN x x') (hy : SameOrNaN y y') : SameOrNaN (fsub nan x y) (fsub nan' x' y') :=
  sameOrNaN_of_cases fsub_nan fsub_cases h1 h2 hx hy

theorem sameOrNaN_fmul {nan nan' x x' y y' : Word} (h1 : isNaN nan = true) (h2 : isNaN nan' = true)
    (hx : SameOrNaN x x') (hy : SameOrNaN y y') : SameOrNaN (fmul nan x y) (fmul nan' x' y') :=
  sameOrNaN_of_cases fmul_nan fmul_cases h1 h2 hx hy

theorem sameOrNaN_fneg {x x' : Word} (h : SameOrNaN x x') : SameOrNaN (fneg x) (fneg x') := by
  rcases h with rfl | ⟨h, h'⟩
  · exact sameOrNaN_refl _
  · exact .inr ⟨by simpa using h, by simpa using h'⟩

end Sys2Proof.Machine
end

