-- ==== Sys2Proof/Laws/Operands.lean ====
section
/-! SUPPORT. One lemma per access: reading after writing, and what a gathered or scattered line is. Later proofs
cite these instead of unfolding the vectors. -/

namespace Sys2Proof.Machine

@[simp] theorem readBlk_writeBlk_same {α : Type} (b : Vector α 64) (i : BitVec 6) (w : α) :
    readBlk (writeBlk b i w) i = w := by
  simp [readBlk, writeBlk]

theorem readBlk_writeBlk_other {α : Type} (b : Vector α 64) {i k : BitVec 6} (w : α) (h : k ≠ i) :
    readBlk (writeBlk b i w) k = readBlk b k := by
  have : i.toNat ≠ k.toNat := fun e => h (BitVec.eq_of_toNat_eq e.symm)
  simp [readBlk, writeBlk, this]

theorem readBlk_writeBlk {α : Type} (b : Vector α 64) (i k : BitVec 6) (w : α) :
    readBlk (writeBlk b i w) k = if k = i then w else readBlk b k := by
  split
  · next h => subst h; simp
  · next h => exact readBlk_writeBlk_other b w h

/-- Two block stores that read alike are one. -/
theorem blk_ext {α : Type} {a b : Vector α 64} (h : ∀ i, readBlk a i = readBlk b i) : a = b := by
  refine Vector.ext fun i hi => ?_
  have := h (BitVec.ofNat 6 i)
  simpa [readBlk, Nat.mod_eq_of_lt hi] using this

theorem readBlk_replicate {α : Type} (w : α) (i : BitVec 6) :
    readBlk (Vector.replicate 64 w) i = w := by
  simp [readBlk]

/-- Every position is one of the eight. -/
theorem position_cases (j : BitVec 3) :
    j = 0 ∨ j = 1 ∨ j = 2 ∨ j = 3 ∨ j = 4 ∨ j = 5 ∨ j = 6 ∨ j = 7 := by
  revert j; decide

/-- Two lines of eight that agree at every position are one. -/
theorem line_ext {α : Type} {a b : Vector α 8} (h : ∀ j, elem a j = elem b j) : a = b := by
  ext i hi
  have := h (BitVec.ofNat 3 i)
  simpa [elem, Nat.mod_eq_of_lt hi] using this

@[simp] theorem lineOf_lineIdx (axis : Axis) (n j : BitVec 3) : lineOf axis (lineIdx axis n j) = n := by
  cases axis <;> revert n j <;> decide

@[simp] theorem posOf_lineIdx (axis : Axis) (n j : BitVec 3) : posOf axis (lineIdx axis n j) = j := by
  cases axis <;> revert n j <;> decide

@[simp] theorem lineIdx_lineOf_posOf (axis : Axis) (i : BitVec 6) :
    lineIdx axis (lineOf axis i) (posOf axis i) = i := by
  cases axis <;> revert i <;> decide

/-- An element is at position `j` of line `n` exactly when its two coordinates say so. -/
theorem eq_lineIdx_iff (axis : Axis) (n j : BitVec 3) (i : BitVec 6) :
    i = lineIdx axis n j ↔ lineOf axis i = n ∧ posOf axis i = j := by
  constructor
  · rintro rfl; simp
  · rintro ⟨rfl, rfl⟩; simp

@[simp] theorem elem_gather {α : Type} (b : Vector α 64) (axis : Axis) (n j : BitVec 3) :
    elem (gather b axis n) j = readBlk b (lineIdx axis n j) := by
  rcases position_cases j with rfl | rfl | rfl | rfl | rfl | rfl | rfl | rfl <;> rfl

/-- What a scatter leaves at every index: the line's own element, or what was there. -/
theorem readBlk_scatter {α : Type} (b : Vector α 64) (axis : Axis) (n : BitVec 3) (o : Vector α 8)
    (i : BitVec 6) :
    readBlk (scatter b axis n o) i =
      if lineOf axis i = n then elem o (posOf axis i) else readBlk b i := by
  simp only [scatter, positions, List.foldl_cons, List.foldl_nil, readBlk_writeBlk, eq_lineIdx_iff]
  by_cases hn : lineOf axis i = n
  · rcases position_cases (posOf axis i) with h | h | h | h | h | h | h | h <;> simp [hn, h]
  · simp [hn]

@[simp] theorem readBlk_scatter_on {α : Type} (b : Vector α 64) (axis : Axis) (n j : BitVec 3)
    (o : Vector α 8) : readBlk (scatter b axis n o) (lineIdx axis n j) = elem o j := by
  simp [readBlk_scatter]

theorem readBlk_scatter_off {α : Type} (b : Vector α 64) (axis : Axis) (n : BitVec 3) (o : Vector α 8)
    {i : BitVec 6} (h : lineOf axis i ≠ n) : readBlk (scatter b axis n o) i = readBlk b i := by
  simp [readBlk_scatter, h]

/-- A line just scattered gathers back. -/
@[simp] theorem gather_scatter_same {α : Type} (b : Vector α 64) (axis : Axis) (n : BitVec 3)
    (o : Vector α 8) : gather (scatter b axis n o) axis n = o :=
  line_ext fun j => by simp

/-- Another line of the same axis is not touched by a scatter. -/
theorem gather_scatter_other {α : Type} (b : Vector α 64) (axis : Axis) {n k : BitVec 3} (o : Vector α 8)
    (h : k ≠ n) : gather (scatter b axis n o) axis k = gather b axis k :=
  line_ext fun j => by simp [readBlk_scatter, h]

end Sys2Proof.Machine
end

