-- ==== Sys2Proof/Laws/State.lean ====
section
/-! SUPPORT. The small lemmas of State: what each update leaves in each field. Later proofs cite these and never
unfold a record update. -/

namespace Sys2Proof.Machine

@[simp] theorem respond_blk (l : Nat) (c : RspCode) (d : Word) (s : State) :
    (respond l c d s).blk = s.blk := rfl
@[simp] theorem respond_status (l : Nat) (c : RspCode) (d : Word) (s : State) :
    (respond l c d s).status = s.status := rfl
@[simp] theorem respond_seq (l : Nat) (c : RspCode) (d : Word) (s : State) :
    (respond l c d s).seq = s.seq := rfl
@[simp] theorem respond_tmp (l : Nat) (c : RspCode) (d : Word) (s : State) :
    (respond l c d s).tmp = s.tmp := rfl
@[simp] theorem respond_cmd (l : Nat) (c : RspCode) (d : Word) (s : State) :
    (respond l c d s).cmd = s.cmd := rfl
@[simp] theorem respond_port (l : Nat) (c : RspCode) (d : Word) (s : State) :
    (respond l c d s).port = .busy (l - 1) { code := c, data := d } := rfl
@[simp] theorem respond_taken (l : Nat) (c : RspCode) (d : Word) (s : State) :
    (respond l c d s).taken = s.taken := rfl
@[simp] theorem respond_inputs (l : Nat) (c : RspCode) (d : Word) (s : State) :
    (respond l c d s).inputs = s.inputs := rfl
@[simp] theorem respond_draws (l : Nat) (c : RspCode) (d : Word) (s : State) :
    (respond l c d s).draws = s.draws := rfl
@[simp] theorem respond_lat (l : Nat) (c : RspCode) (d : Word) (s : State) :
    (respond l c d s).lat = s.lat := rfl

@[simp] theorem setIll_blk (s : State) : (s.setIll).blk = s.blk := rfl
@[simp] theorem setIll_status (s : State) : (s.setIll).status = s.status ||| 1#32 := rfl
@[simp] theorem setIll_seq (s : State) : (s.setIll).seq = s.seq := rfl
@[simp] theorem setIll_tmp (s : State) : (s.setIll).tmp = s.tmp := rfl
@[simp] theorem setIll_cmd (s : State) : (s.setIll).cmd = s.cmd := rfl
@[simp] theorem setIll_port (s : State) : (s.setIll).port = s.port := rfl
@[simp] theorem setIll_taken (s : State) : (s.setIll).taken = s.taken := rfl
@[simp] theorem setIll_inputs (s : State) : (s.setIll).inputs = s.inputs := rfl
@[simp] theorem setIll_draws (s : State) : (s.setIll).draws = s.draws := rfl
@[simp] theorem setIll_lat (s : State) : (s.setIll).lat = s.lat := rfl

@[simp] theorem raiseIllegalCommand_blk (s : State) : (raiseIllegalCommand s).blk = s.blk := rfl
@[simp] theorem raiseIllegalCommand_status (s : State) :
    (raiseIllegalCommand s).status = s.status ||| 1#32 := rfl
@[simp] theorem raiseIllegalCommand_seq (s : State) : (raiseIllegalCommand s).seq = s.seq := rfl
@[simp] theorem raiseIllegalCommand_tmp (s : State) : (raiseIllegalCommand s).tmp = s.tmp := rfl
@[simp] theorem raiseIllegalCommand_cmd (s : State) : (raiseIllegalCommand s).cmd = s.cmd := rfl
@[simp] theorem raiseIllegalCommand_port (s : State) :
    (raiseIllegalCommand s).port = .busy (s.lat.illegal - 1) { code := .illegal, data := 0 } := rfl
@[simp] theorem raiseIllegalCommand_taken (s : State) : (raiseIllegalCommand s).taken = s.taken := rfl
@[simp] theorem raiseIllegalCommand_inputs (s : State) : (raiseIllegalCommand s).inputs = s.inputs := rfl
@[simp] theorem raiseIllegalCommand_draws (s : State) : (raiseIllegalCommand s).draws = s.draws := rfl
@[simp] theorem raiseIllegalCommand_lat (s : State) : (raiseIllegalCommand s).lat = s.lat := rfl

@[simp] theorem takeResponse_blk (r : Response) (s : State) : (takeResponse r s).blk = s.blk := rfl
@[simp] theorem takeResponse_status (r : Response) (s : State) : (takeResponse r s).status = s.status := rfl
@[simp] theorem takeResponse_seq (r : Response) (s : State) : (takeResponse r s).seq = s.seq := rfl
@[simp] theorem takeResponse_tmp (r : Response) (s : State) : (takeResponse r s).tmp = s.tmp := rfl
@[simp] theorem takeResponse_cmd (r : Response) (s : State) : (takeResponse r s).cmd = s.cmd := rfl
@[simp] theorem takeResponse_port (r : Response) (s : State) : (takeResponse r s).port = .idle := rfl
@[simp] theorem takeResponse_taken (r : Response) (s : State) :
    (takeResponse r s).taken = s.taken ++ [r] := rfl
@[simp] theorem takeResponse_inputs (r : Response) (s : State) : (takeResponse r s).inputs = s.inputs := rfl
@[simp] theorem takeResponse_draws (r : Response) (s : State) : (takeResponse r s).draws = s.draws := rfl
@[simp] theorem takeResponse_lat (r : Response) (s : State) : (takeResponse r s).lat = s.lat := rfl

@[simp] theorem forwardLine_blk (axis : Axis) (n : BitVec 3) (s : State) :
    (forwardLine axis n s).blk = scatter s.blk axis n (fwd1d (nanDraw s.draws) (gather s.blk axis n)) := rfl
@[simp] theorem forwardLine_status (axis : Axis) (n : BitVec 3) (s : State) :
    (forwardLine axis n s).status = s.status := rfl
@[simp] theorem forwardLine_seq (axis : Axis) (n : BitVec 3) (s : State) :
    (forwardLine axis n s).seq = s.seq := rfl
@[simp] theorem forwardLine_tmp (axis : Axis) (n : BitVec 3) (s : State) :
    (forwardLine axis n s).tmp = { s.tmp with fwd := fwdTempsHw (nanDraw s.draws) (gather s.blk axis n) } := rfl
@[simp] theorem forwardLine_cmd (axis : Axis) (n : BitVec 3) (s : State) :
    (forwardLine axis n s).cmd = s.cmd := rfl
@[simp] theorem forwardLine_port (axis : Axis) (n : BitVec 3) (s : State) :
    (forwardLine axis n s).port = s.port := rfl
@[simp] theorem forwardLine_taken (axis : Axis) (n : BitVec 3) (s : State) :
    (forwardLine axis n s).taken = s.taken := rfl
@[simp] theorem forwardLine_inputs (axis : Axis) (n : BitVec 3) (s : State) :
    (forwardLine axis n s).inputs = s.inputs := rfl
@[simp] theorem forwardLine_draws (axis : Axis) (n : BitVec 3) (s : State) :
    (forwardLine axis n s).draws = s.draws + 50 := rfl
@[simp] theorem forwardLine_lat (axis : Axis) (n : BitVec 3) (s : State) :
    (forwardLine axis n s).lat = s.lat := rfl

@[simp] theorem inverseLine_blk (axis : Axis) (n : BitVec 3) (s : State) :
    (inverseLine axis n s).blk = scatter s.blk axis n (inv1d (nanDraw s.draws) (gather s.blk axis n)) := rfl
@[simp] theorem inverseLine_status (axis : Axis) (n : BitVec 3) (s : State) :
    (inverseLine axis n s).status = s.status := rfl
@[simp] theorem inverseLine_seq (axis : Axis) (n : BitVec 3) (s : State) :
    (inverseLine axis n s).seq = s.seq := rfl
@[simp] theorem inverseLine_tmp (axis : Axis) (n : BitVec 3) (s : State) :
    (inverseLine axis n s).tmp = { s.tmp with inv := invTempsHw (nanDraw s.draws) (gather s.blk axis n) } := rfl
@[simp] theorem inverseLine_cmd (axis : Axis) (n : BitVec 3) (s : State) :
    (inverseLine axis n s).cmd = s.cmd := rfl
@[simp] theorem inverseLine_port (axis : Axis) (n : BitVec 3) (s : State) :
    (inverseLine axis n s).port = s.port := rfl
@[simp] theorem inverseLine_taken (axis : Axis) (n : BitVec 3) (s : State) :
    (inverseLine axis n s).taken = s.taken := rfl
@[simp] theorem inverseLine_inputs (axis : Axis) (n : BitVec 3) (s : State) :
    (inverseLine axis n s).inputs = s.inputs := rfl
@[simp] theorem inverseLine_draws (axis : Axis) (n : BitVec 3) (s : State) :
    (inverseLine axis n s).draws = s.draws + 48 := rfl
@[simp] theorem inverseLine_lat (axis : Axis) (n : BitVec 3) (s : State) :
    (inverseLine axis n s).lat = s.lat := rfl

@[simp] theorem presentTo_blk (c : Cmd) (s : State) : (presentTo c s).blk = s.blk := rfl
@[simp] theorem presentTo_status (c : Cmd) (s : State) : (presentTo c s).status = s.status := rfl
@[simp] theorem presentTo_seq (c : Cmd) (s : State) : (presentTo c s).seq = s.seq := rfl
@[simp] theorem presentTo_tmp (c : Cmd) (s : State) : (presentTo c s).tmp = s.tmp := rfl
@[simp] theorem presentTo_cmd (c : Cmd) (s : State) : (presentTo c s).cmd = s.cmd := rfl
@[simp] theorem presentTo_port (c : Cmd) (s : State) : (presentTo c s).port = .idle := rfl
@[simp] theorem presentTo_taken (c : Cmd) (s : State) : (presentTo c s).taken = s.taken := rfl
@[simp] theorem presentTo_inputs (c : Cmd) (s : State) :
    (presentTo c s).inputs = presentEdge c :: s.inputs := rfl
@[simp] theorem presentTo_draws (c : Cmd) (s : State) : (presentTo c s).draws = s.draws := rfl
@[simp] theorem presentTo_lat (c : Cmd) (s : State) : (presentTo c s).lat = s.lat := rfl

@[simp] theorem dropInput_blk (s : State) : (s.dropInput).blk = s.blk := rfl
@[simp] theorem dropInput_status (s : State) : (s.dropInput).status = s.status := rfl
@[simp] theorem dropInput_seq (s : State) : (s.dropInput).seq = s.seq := rfl
@[simp] theorem dropInput_tmp (s : State) : (s.dropInput).tmp = s.tmp := rfl
@[simp] theorem dropInput_cmd (s : State) : (s.dropInput).cmd = s.cmd := rfl
@[simp] theorem dropInput_port (s : State) : (s.dropInput).port = s.port := rfl
@[simp] theorem dropInput_taken (s : State) : (s.dropInput).taken = s.taken := rfl
@[simp] theorem dropInput_inputs (s : State) : (s.dropInput).inputs = s.inputs.tail := rfl
@[simp] theorem dropInput_draws (s : State) : (s.dropInput).draws = s.draws := rfl
@[simp] theorem dropInput_lat (s : State) : (s.dropInput).lat = s.lat := rfl

@[simp] theorem resetEdge_blk (s : State) : (resetEdge s).blk = freeBlk s.draws := rfl
@[simp] theorem resetEdge_status (s : State) : (resetEdge s).status = 0 := rfl
@[simp] theorem resetEdge_seq (s : State) : (resetEdge s).seq = .idle := rfl
@[simp] theorem resetEdge_tmp (s : State) : (resetEdge s).tmp = freeTmp (s.draws + 64) := rfl
@[simp] theorem resetEdge_cmd (s : State) : (resetEdge s).cmd = { word := 0, data := 0 } := rfl
@[simp] theorem resetEdge_port (s : State) : (resetEdge s).port = .idle := rfl
@[simp] theorem resetEdge_taken (s : State) : (resetEdge s).taken = [] := rfl
@[simp] theorem resetEdge_inputs (s : State) : (resetEdge s).inputs = s.inputs := by simp only [resetEdge]
@[simp] theorem resetEdge_draws (s : State) : (resetEdge s).draws = s.draws + 104 := rfl
@[simp] theorem resetEdge_lat (s : State) : (resetEdge s).lat = s.lat := by simp only [resetEdge]

end Sys2Proof.Machine
end

