-- ==== Sys2Proof/Laws/Ops.lean ====
section
/-! SUPPORT. What each shared operation can do, said once: the sequencer, a command, acceptance, a clock edge.
Later proofs cite these instead of unfolding the operations. -/

namespace Sys2Proof.Machine

/-- Outside BLK, TMP, SEQ and the counter, nothing of the state differs. -/
def DatapathOnly (s t : State) : Prop :=
  t.status = s.status ∧ t.cmd = s.cmd ∧ t.port = s.port ∧ t.taken = s.taken ∧ t.inputs = s.inputs ∧
    t.lat = s.lat

theorem DatapathOnly.refl (s : State) : DatapathOnly s s := ⟨rfl, rfl, rfl, rfl, rfl, rfl⟩

theorem DatapathOnly.trans {s t u : State} (h : DatapathOnly s t) (k : DatapathOnly t u) :
    DatapathOnly s u := by
  obtain ⟨h1, h2, h3, h4, h5, h6⟩ := h
  obtain ⟨k1, k2, k3, k4, k5, k6⟩ := k
  exact ⟨k1.trans h1, k2.trans h2, k3.trans h3, k4.trans h4, k5.trans h5, k6.trans h6⟩

theorem seqTransform_datapathOnly (kind : SeqKind) (axis : Axis) (n : BitVec 3) (s : State) :
    DatapathOnly s (seqTransform kind axis n s) := by
  cases kind <;> exact ⟨rfl, rfl, rfl, rfl, rfl, rfl⟩

theorem seqStep_idle {s : State} (h : s.seq = .idle) : seqStep s = s := by
  simp [seqStep, h]

theorem seqStep_run {s : State} {kind : SeqKind} {t : BitVec 4} (h : s.seq = .run kind t) :
    seqStep s = { seqTransform kind (seqAxis kind t) (seqLine t) s with
      seq := if t = 15 then .idle else .run kind (t + 1) } := by
  simp [seqStep, h]

theorem seqStep_datapathOnly (s : State) : DatapathOnly s (seqStep s) := by
  cases h : s.seq with
  | idle => rw [seqStep_idle h]; exact .refl s
  | run kind t =>
    rw [seqStep_run h]
    exact seqTransform_datapathOnly kind (seqAxis kind t) (seqLine t) s

theorem seqSteps_datapathOnly (k : Nat) (s : State) : DatapathOnly s (seqSteps k s) := by
  induction k generalizing s with
  | zero => exact .refl s
  | succ k ih => exact (seqStep_datapathOnly s).trans (ih (seqStep s))

theorem runSequencer_datapathOnly (kind : SeqKind) (s : State) :
    DatapathOnly s (runSequencer kind s) :=
  seqSteps_datapathOnly 16 { s with seq := .run kind 0 }

theorem seqStep_seq {s : State} {kind : SeqKind} {t : BitVec 4} (h : s.seq = .run kind t) :
    (seqStep s).seq = if t = 15 then .idle else .run kind (t + 1) := by
  rw [seqStep_run h]

/-- From step `t` the sequencer is idle after `16 - t` steps. -/
theorem seqSteps_seq (k : Nat) (s : State) (kind : SeqKind) (t : BitVec 4) (h : s.seq = .run kind t)
    (hk : t.toNat + k = 16) (hpos : 0 < k) : (seqSteps k s).seq = .idle := by
  induction k generalizing s t with
  | zero => exact absurd hpos (by omega)
  | succ k ih =>
    have hs := seqStep_seq h
    by_cases ht : t = 15
    · subst ht
      have : k = 0 := by
        have : (15 : BitVec 4).toNat = 15 := rfl
        omega
      subst this
      simpa [seqSteps] using hs
    · have hne : t.toNat ≠ 15 := fun e => ht (BitVec.eq_of_toNat_eq e)
      have hadd : (t + 1).toNat = t.toNat + 1 := by
        have h1 := t.isLt
        have h2 : (1 : BitVec 4).toNat = 1 := rfl
        simp only [BitVec.toNat_add, h2]
        omega
      rw [if_neg ht] at hs
      exact ih (seqStep s) (t + 1) hs (by omega) (by omega)

@[simp] theorem runSequencer_seq (kind : SeqKind) (s : State) : (runSequencer kind s).seq = .idle :=
  seqSteps_seq 16 { s with seq := .run kind 0 } kind 0 rfl rfl (by omega)

/-! The sequencer neither reads nor writes the latch, STATUS, the port, the record, the host's signals or the
latencies: exchanging them before or after it is the same. -/

/-- Another command latch, status, port, record, list of host signals and latencies. -/
def reshell (u s : State) : State :=
  { s with status := u.status, cmd := u.cmd, port := u.port, taken := u.taken, inputs := u.inputs,
           lat := u.lat }

theorem seqStep_reshell (u s : State) : seqStep (reshell u s) = reshell u (seqStep s) := by
  cases h : s.seq with
  | idle => rw [seqStep_idle h, seqStep_idle (s := reshell u s) h]
  | run kind t =>
    rw [seqStep_run h, seqStep_run (s := reshell u s) h]
    cases kind <;> rfl

theorem seqSteps_reshell (k : Nat) (u s : State) :
    seqSteps k (reshell u s) = reshell u (seqSteps k s) := by
  induction k generalizing s with
  | zero => rfl
  | succ k ih => rw [seqSteps, seqSteps, seqStep_reshell, ih]

theorem runSequencer_reshell (kind : SeqKind) (u s : State) :
    runSequencer kind (reshell u s) = reshell u (runSequencer kind s) :=
  seqSteps_reshell 16 u { s with seq := .run kind 0 }

theorem next_inj {s t : State} (h : (Host.Outcome.next s : StepResult) = .next t) : s = t := by
  injection h

theorem exec_wrb (idx : BitVec 6) (s : State) :
    exec (.wrb idx) s = .next (respond s.lat.wrb .ok 0 { s with blk := writeBlk s.blk idx s.cmd.data }) :=
  rfl

theorem exec_rdb (idx : BitVec 6) (s : State) :
    exec (.rdb idx) s = .next (respond s.lat.rdb .ok (readBlk s.blk idx) s) := rfl

theorem exec_rdc_some {k : BitVec 4} {w : Word} (s : State) (h : romSlot k = some w) :
    exec (.rdc k) s = .next (respond s.lat.rdc .ok w s) := by
  simp only [exec, execRdc, h]

theorem exec_rdc_none {k : BitVec 4} (s : State) (h : romSlot k = none) :
    exec (.rdc k) s = .next (raiseIllegalCommand s) := by
  simp only [exec, execRdc, h]

theorem exec_fdct1 (axis : Axis) (n : BitVec 3) (s : State) :
    exec (.fdct1 axis n) s = .next (respond s.lat.line .ok 0 (forwardLine axis n s)) := rfl

theorem exec_idct1 (axis : Axis) (n : BitVec 3) (s : State) :
    exec (.idct1 axis n) s = .next (respond s.lat.line .ok 0 (inverseLine axis n s)) := rfl

theorem exec_fdct2 (s : State) :
    exec .fdct2 s = .next (respond s.lat.block .ok 0 (runSequencer .fwd2 s)) := rfl

theorem exec_idct2 (s : State) :
    exec .idct2 s = .next (respond s.lat.block .ok 0 (runSequencer .inv2 s)) := rfl

theorem exec_rdst (s : State) : exec .rdst s = .next (respond s.lat.rdst .ok s.statusWord s) := rfl

theorem exec_nop (s : State) : exec .nop s = .next (respond s.lat.nop .ok 0 s) := rfl

/-- A slot of the ROM is defined exactly up to index 12. -/
theorem romSlot_eq_none_iff (k : BitVec 4) : romSlot k = none ↔ 12 < k.toNat := by
  revert k; decide

/-- What a command that completes leaves outside BLK, TMP, SEQ, STATUS and the counter: the latch, the record, the
host's signals and the latencies are kept, and the port is busy with the answer. -/
theorem exec_spec {i : Instr} {s t : State} (h : exec i s = .next t) :
    t.cmd = s.cmd ∧ t.taken = s.taken ∧ t.inputs = s.inputs ∧ t.lat = s.lat ∧
      ∃ w r, t.port = .busy w r := by
  cases i with
  | wrb idx => rw [exec_wrb] at h; obtain rfl := next_inj h; simp
  | rdb idx => rw [exec_rdb] at h; obtain rfl := next_inj h; simp
  | rdc k =>
    cases hk : romSlot k with
    | some w => rw [exec_rdc_some s hk] at h; obtain rfl := next_inj h; simp
    | none => rw [exec_rdc_none s hk] at h; obtain rfl := next_inj h; simp
  | fdct1 axis n => rw [exec_fdct1] at h; obtain rfl := next_inj h; simp
  | idct1 axis n => rw [exec_idct1] at h; obtain rfl := next_inj h; simp
  | fdct2 =>
    rw [exec_fdct2] at h
    obtain rfl := next_inj h
    obtain ⟨_, h2, _, h4, h5, h6⟩ := runSequencer_datapathOnly .fwd2 s
    simp [h2, h4, h5, h6]
  | idct2 =>
    rw [exec_idct2] at h
    obtain rfl := next_inj h
    obtain ⟨_, h2, _, h4, h5, h6⟩ := runSequencer_datapathOnly .inv2 s
    simp [h2, h4, h5, h6]
  | rdst => rw [exec_rdst] at h; obtain rfl := next_inj h; simp
  | nop => rw [exec_nop] at h; obtain rfl := next_inj h; simp

theorem accept_ok {c : Cmd} {i : Instr} (s : State) (h : decode c.word = .ok i) :
    accept c s = exec i { s with cmd := c } := by
  simp [accept, h]

theorem accept_illegal {c : Cmd} {e : Illegal} (s : State) (h : decode c.word = .error e) :
    accept c s = .next (raiseIllegalCommand { s with cmd := c }) := by
  simp [accept, h]

theorem clockEdge_reset {e : EdgeIn} (s : State) (h : e.rst = true) :
    clockEdge e s = .next (resetEdge s) := by
  simp [clockEdge, h]

theorem clockEdge_accept {e : EdgeIn} {s : State} (h : e.rst = false) (hp : s.port = .idle)
    (hv : e.cmdValid = true) :
    clockEdge e s = accept { word := e.cmdWord, data := e.cmdData } s := by
  simp [clockEdge, h, hp, hv]

theorem clockEdge_idle {e : EdgeIn} {s : State} (h : e.rst = false) (hp : s.port = .idle)
    (hv : e.cmdValid = false) : clockEdge e s = .next s := by
  simp [clockEdge, h, hp, hv]

theorem clockEdge_busy {e : EdgeIn} {s : State} {w : Nat} {r : Response} (h : e.rst = false)
    (hp : s.port = .busy w r) : clockEdge e s = .next (busyEdge e.rspReady w r s) := by
  simp [clockEdge, h, hp]

/-- What a step that completes can have been: a reset, an acceptance, an idle edge, or an edge of the busy
port. -/
theorem step_cases {s t : State} (h : step s = .next t) :
    (s.nextInput.rst = true ∧ t = resetEdge s.dropInput) ∨
    (s.nextInput.rst = false ∧ s.port = .idle ∧ s.nextInput.cmdValid = true ∧
      accept { word := s.nextInput.cmdWord, data := s.nextInput.cmdData } s.dropInput = .next t) ∨
    (s.nextInput.rst = false ∧ s.port = .idle ∧ s.nextInput.cmdValid = false ∧ t = s.dropInput) ∨
    (∃ w r, s.nextInput.rst = false ∧ s.port = .busy w r ∧
      t = busyEdge s.nextInput.rspReady w r s.dropInput) := by
  unfold step at h
  cases hr : s.nextInput.rst with
  | true =>
    rw [clockEdge_reset _ hr] at h
    exact .inl ⟨rfl, (next_inj h).symm⟩
  | false =>
    cases hp : s.port with
    | idle =>
      cases hv : s.nextInput.cmdValid with
      | true =>
        rw [clockEdge_accept hr (s := s.dropInput) (by simpa using hp) hv] at h
        exact .inr (.inl ⟨rfl, rfl, rfl, h⟩)
      | false =>
        rw [clockEdge_idle hr (s := s.dropInput) (by simpa using hp) hv] at h
        exact .inr (.inr (.inl ⟨rfl, rfl, rfl, (next_inj h).symm⟩))
    | busy w r =>
      rw [clockEdge_busy hr (s := s.dropInput) (by simpa using hp)] at h
      exact .inr (.inr (.inr ⟨w, r, rfl, rfl, (next_inj h).symm⟩))

end Sys2Proof.Machine
end

