-- ==== Sys2Proof/Laws/PerInstr.lean ====
section
/-! SUPPORT. The family RoundTrip: for each command, decoding the encoding of a well-formed one gives it back
(spec/30_encoding.md R81, R84). The operand fields are at most six bits, so each lemma runs through them. -/

namespace Sys2Proof.Laws.RoundTrip

open Sys2Proof

/-- Decoding the command word of `i` gives `i`. -/
def Statement (i : Instr) : Prop := i.wf = true → decode (encode i) = .ok i

theorem wrb (idx : BitVec 6) : Statement (.wrb idx) := fun _ => by
  revert idx; decide

theorem rdb (idx : BitVec 6) : Statement (.rdb idx) := fun _ => by
  revert idx; decide

theorem rdc (k : BitVec 4) : Statement (.rdc k) := by
  unfold Statement; revert k; decide

theorem fdct1 (axis : Axis) (n : BitVec 3) : Statement (.fdct1 axis n) := fun _ => by
  cases axis <;> revert n <;> decide

theorem idct1 (axis : Axis) (n : BitVec 3) : Statement (.idct1 axis n) := fun _ => by
  cases axis <;> revert n <;> decide

theorem fdct2 : Statement .fdct2 := fun _ => by decide

theorem idct2 : Statement .idct2 := fun _ => by decide

theorem rdst : Statement .rdst := fun _ => by decide

theorem nop : Statement .nop := fun _ => by decide

end Sys2Proof.Laws.RoundTrip
end

