-- ==== Sys2Proof/Laws/Transaction.lean ====
section
/-! SUPPORT. Whole commands: what acceptance and one transaction leave, and how programs are put together. -/

namespace Sys2Proof.Machine

/-- Every command completes. -/
theorem exec_completes (i : Instr) (s : State) : ∃ t, exec i s = .next t := by
  cases i with
  | rdc k =>
    cases hk : romSlot k with
    | some w => exact ⟨_, exec_rdc_some s hk⟩
    | none => exact ⟨_, exec_rdc_none s hk⟩
  | _ => exact ⟨_, rfl⟩

theorem accept_completes (c : Cmd) (s : State) : ∃ t, accept c s = .next t := by
  cases h : decode c.word with
  | ok i => rw [accept_ok s h]; exact exec_completes i _
  | error e => exact ⟨_, accept_illegal s h⟩

/-- Acceptance samples the pair and keeps the record, the host's signals and the latencies; the port is busy. -/
theorem accept_spec {c : Cmd} {s t : State} (h : accept c s = .next t) :
    t.cmd = c ∧ t.taken = s.taken ∧ t.inputs = s.inputs ∧ t.lat = s.lat ∧
      ∃ w r, t.port = .busy w r := by
  cases hd : decode c.word with
  | ok i => rw [accept_ok s hd] at h; exact exec_spec h
  | error e =>
    rw [accept_illegal s hd] at h
    obtain rfl := next_inj h
    simp

theorem finishResponse_busy {s : State} {w : Nat} {r : Response} (h : s.port = .busy w r) :
    finishResponse s = takeResponse r s := by
  simp [finishResponse, h]

theorem transaction_of_accept {c : Cmd} {s t : State} (h : accept c s = .next t) :
    transaction c s = .next (finishResponse t) := by
  simp [transaction, h]

/-- One transaction: the core is idle again, and the record is longer by one response. -/
theorem transaction_spec (c : Cmd) (s : State) :
    ∃ t r, transaction c s = .next t ∧ t.port = .idle ∧ t.taken = s.taken ++ [r] ∧ t.cmd = c ∧
      t.inputs = s.inputs ∧ t.lat = s.lat := by
  obtain ⟨u, hu⟩ := accept_completes c s
  obtain ⟨h1, h2, h3, h4, w, r, h5⟩ := accept_spec hu
  refine ⟨takeResponse r u, r, ?_, rfl, ?_, h1, h3, h4⟩
  · rw [transaction_of_accept hu, finishResponse_busy h5]
  · rw [takeResponse_taken, h2]

theorem runProgram_nil (s : State) : runProgram [] s = .next s := rfl

theorem runProgram_cons {c : Cmd} {s t : State} (cs : List Cmd) (h : transaction c s = .next t) :
    runProgram (c :: cs) s = runProgram cs t := by
  simp [runProgram, h]

/-- Two programs, one after the other (R54). -/
theorem runProgram_append {cs : List Cmd} (ds : List Cmd) {s t : State} (h : runProgram cs s = .next t) :
    runProgram (cs ++ ds) s = runProgram ds t := by
  induction cs generalizing s with
  | nil => rw [runProgram_nil] at h; obtain rfl := next_inj h; rfl
  | cons c cs ih =>
    obtain ⟨u, r, hu, _⟩ := transaction_spec c s
    rw [runProgram_cons cs hu] at h
    rw [List.cons_append, runProgram_cons _ hu]
    exact ih h

end Sys2Proof.Machine
end

