-- ==== Sys2Proof/Laws/Transform2D.lean ====
section
/-! SUPPORT. The block a 2D command leaves: the sequencer computes the two passes of `transformBlk`. -/

namespace Sys2Proof.Machine

theorem seqTransform_blk (kind : SeqKind) (axis : Axis) (n : BitVec 3) (s : State) :
    (seqTransform kind axis n s).blk = transformLine (seqLine1d kind (nanDraw s.draws)) axis n s.blk := by
  cases kind <;> rfl

theorem seqTransform_draws (kind : SeqKind) (axis : Axis) (n : BitVec 3) (s : State) :
    (seqTransform kind axis n s).draws = s.draws + seqOps kind := by
  cases kind <;> rfl

theorem readBlk_transformLine {α : Type} (f : Vector α 8 → Vector α 8) (axis : Axis) (n : BitVec 3)
    (b : Vector α 64) (i : BitVec 6) :
    readBlk (transformLine f axis n b) i =
      if lineOf axis i = n then elem (f (gather b axis n)) (posOf axis i) else readBlk b i :=
  readBlk_scatter ..

theorem gather_transformLine_other {α : Type} (f : Vector α 8 → Vector α 8) (axis : Axis)
    {n k : BitVec 3} (b : Vector α 64) (h : k ≠ n) :
    gather (transformLine f axis n b) axis k = gather b axis k :=
  gather_scatter_other b axis _ h

/-- The lines of a list without repeats, transformed one after another: each from what it held before them all. -/
theorem readBlk_foldl_transformLine {α : Type} (f : BitVec 3 → Vector α 8 → Vector α 8) (axis : Axis)
    (ns : List (BitVec 3)) (hns : ns.Nodup) (b : Vector α 64) (i : BitVec 6) :
    readBlk (ns.foldl (fun b n => transformLine (f n) axis n b) b) i =
      if lineOf axis i ∈ ns then elem (f (lineOf axis i) (gather b axis (lineOf axis i))) (posOf axis i)
      else readBlk b i := by
  induction ns generalizing b with
  | nil => simp
  | cons n ns ih =>
    obtain ⟨hn, hns⟩ := List.nodup_cons.mp hns
    rw [List.foldl_cons, ih hns, readBlk_transformLine]
    by_cases hi : lineOf axis i = n
    · subst hi
      simp [hn]
    · simp [hi, gather_transformLine_other (f n) axis b hi]

/-- A pass transforms every line from what it held before the pass. -/
theorem readBlk_passBlk {α : Type} (f : BitVec 3 → Vector α 8 → Vector α 8) (axis : Axis)
    (b : Vector α 64) (i : BitVec 6) :
    readBlk (passBlk f axis b) i =
      elem (f (lineOf axis i) (gather b axis (lineOf axis i))) (posOf axis i) := by
  have h : ∀ n : BitVec 3, n ∈ positions := by decide
  rw [passBlk, readBlk_foldl_transformLine f axis positions (by decide), if_pos (h _)]

/-- `k` sequencer steps from step `t` are the line transforms of steps `t` to `t + k - 1`, in order. -/
theorem seqSteps_blk (k : Nat) (s : State) (kind : SeqKind) (t : BitVec 4) (h : s.seq = .run kind t)
    (hk : t.toNat + k ≤ 16) :
    (seqSteps k s).blk =
      (List.range k).foldl
        (fun b i => transformLine (seqLine1d kind (nanDraw (s.draws + seqOps kind * i)))
          (seqAxis kind (t + BitVec.ofNat 4 i)) (seqLine (t + BitVec.ofNat 4 i)) b) s.blk := by
  induction k generalizing s t with
  | zero => rfl
  | succ k ih =>
    have hb : (seqStep s).blk = transformLine (seqLine1d kind (nanDraw s.draws))
        (seqAxis kind t) (seqLine t) s.blk := by
      rw [seqStep_run h]; exact seqTransform_blk ..
    have hd : (seqStep s).draws = s.draws + seqOps kind := by
      rw [seqStep_run h]; exact seqTransform_draws ..
    rw [List.range_succ_eq_map, List.foldl_cons, List.foldl_map]
    cases k with
    | zero => simpa [seqSteps] using hb
    | succ k =>
      have ht : t ≠ 15 := fun e => by
        subst e
        have : (15 : BitVec 4).toNat = 15 := rfl
        omega
      have hs := seqStep_seq h
      rw [if_neg ht] at hs
      have hadd : (t + 1).toNat = t.toNat + 1 := by
        have h2 : (1 : BitVec 4).toNat = 1 := rfl
        simp only [BitVec.toNat_add, h2]
        omega
      rw [seqSteps, ih (seqStep s) (t + 1) hs (by omega), hb, hd]
      have e0 : t + BitVec.ofNat 4 0 = t := by simp
      have e1 (i : Nat) : t + 1 + BitVec.ofNat 4 i = t + BitVec.ofNat 4 (i + 1) := by
        rw [BitVec.ofNat_add, BitVec.add_assoc, BitVec.add_comm 1 (BitVec.ofNat 4 i)]; rfl
      have e2 (i : Nat) : s.draws + seqOps kind + seqOps kind * i = s.draws + seqOps kind * (i + 1) := by
        rw [Nat.mul_succ, Nat.add_assoc, Nat.add_comm (seqOps kind)]
      simp only [e0, e1, e2, Nat.mul_zero, Nat.add_zero]

/-- The sixteen step numbers are the eight lines twice. -/
theorem foldl_sixteen {β : Type} (g : β → Nat → β) (b : β) :
    (List.range 16).foldl g b =
      positions.foldl (fun b n => g b (1#1 ++ n : BitVec 4).toNat)
        (positions.foldl (fun b n => g b (0#1 ++ n : BitVec 4).toNat) b) := rfl

/-- Step `p ++ n` does line `n`, on the axis of its pass. -/
theorem seq_step_line (kind : SeqKind) (n : BitVec 3) :
    seqLine (0#1 ++ n) = n ∧ seqLine (1#1 ++ n) = n ∧
    seqAxis kind (0#1 ++ n) = seqAxis kind 0 ∧ seqAxis kind (1#1 ++ n) = seqAxis kind 8 := by
  cases kind <;> revert n <;> decide

/-- The block a 2D command leaves: the two passes, step `t` with the draws that the steps before it left. -/
theorem runSequencer_blk (kind : SeqKind) (s : State) :
    (runSequencer kind s).blk =
      transformBlk kind (fun t => seqLine1d kind (nanDraw (s.draws + seqOps kind * t.toNat))) s.blk := by
  have h := seqSteps_blk 16 { s with seq := .run kind 0 } kind 0 rfl (by decide)
  have e (t : BitVec 4) : (0 : BitVec 4) + BitVec.ofNat 4 t.toNat = t := by simp
  have g (n : BitVec 3) := seq_step_line kind n
  rw [runSequencer, h, foldl_sixteen, transformBlk, passBlk, passBlk]
  simp only [e, (g _).1, (g _).2.1, (g _).2.2.1, (g _).2.2.2]

end Sys2Proof.Machine
end

