-- ==== Sys2Proof/Tests/Slice0.lean ====
section
/-! SUPPORT. The model's own tests, expected results from spec/95_test_vectors.md and the rules' worked examples,
and for every obligation with hypotheses a witness that meets them. -/

namespace Sys2Proof.Tests

open Sys2Proof Machine Claims

/-! ### Helpers -/

/-- A block store with the words `v` on line `n` of an axis, +0 elsewhere. -/
def lineBlk (axis : Axis) (n : BitVec 3) (v : Vector Word 8) : Vector Word 64 :=
  scatter (Vector.replicate 64 0) axis n v

/-- The state after reset with another block store. -/
def withBlk (b : Vector Word 64) : State := { State.reset with blk := b }

/-- The state after reset with the host presenting a command, at the coming edge. -/
def presenting (word data : Word) : State := presentTo { word := word, data := data } State.reset

/-- The state after reset, busy with a response due in `wait` cycles, and the host's signals `e` ahead. -/
def busyWith (wait : Nat) (e : EdgeIn) : State :=
  { State.reset with port := .busy wait { code := .ok, data := 7 }, inputs := [e] }

/-- A part of the next state, if there is one. -/
def after {β : Type} (f : State → β) : StepResult → Option β
  | .next t => some (f t)
  | .fault _ => none
  | .refused _ => none

/-- An edge with reset. -/
def rstEdge : EdgeIn := { takeEdge with rst := true }

/-- A source of NAN_OUT that always gives the canonical quiet NaN of R117. -/
def quietNan (_ : Nat) : Word := 0x7FC00000

/-- 1 to 8 (V-F1). -/
def oneToEight : Vector Word 8 :=
  #v[0x3F800000, 0x40000000, 0x40400000, 0x40800000, 0x40A00000, 0x40C00000, 0x40E00000, 0x41000000]

/-- The transform of 1 to 8 (V-F1). -/
def oneToEightOut : Vector Word 8 :=
  #v[0x40900000, 0xC011C5EC, 0x00000000, 0xBE73D10D, 0x00000000, 0xBD917814, 0x00000000, 0xBC92D960]

/-! ### WellFormed: `k <= 12` is the one check (R82, R83) -/

theorem test_wf_rdc_12 : (Instr.rdc 12).wf = true := by decide

theorem test_wf_refuses_rdc_13 : (Instr.rdc 13).wf = false := by decide

theorem test_wf_refuses_rdc_15 : (Instr.rdc 15).wf = false := by decide

/-! ### Decoding: words written out bit by bit from the patterns of R83, and the illegal words of V-A2 -/

theorem test_decode_wrb : decode 0b00010000000000000000000000010101 = .ok (.wrb 21) := by decide

theorem test_decode_rdb : decode 0b00100000000000000000000000111111 = .ok (.rdb 63) := by decide

theorem test_decode_rdc : decode 0b00110000000000000000000000001100 = .ok (.rdc 12) := by decide

theorem test_decode_fdct1 : decode 0b01000000000000000000000000001011 = .ok (.fdct1 .cLine 3) := by decide

theorem test_decode_idct1 : decode 0b01010000000000000000000000000110 = .ok (.idct1 .rLine 6) := by decide

theorem test_decode_fdct2 : decode 0b01100000000000000000000000000000 = .ok .fdct2 := by decide

theorem test_decode_idct2 : decode 0b01110000000000000000000000000000 = .ok .idct2 := by decide

theorem test_decode_rdst : decode 0b10000000000000000000000000000000 = .ok .rdst := by decide

theorem test_decode_nop : decode 0b10010000000000000000000000000000 = .ok .nop := by decide

/-- V-A2: one of each cause. -/
theorem test_decode_illegal :
    [0x00000000, 0xFFFFFFFF, 0xA0000000, 0x10000040, 0x18000000, 0x3000000D, 0x40000010, 0x60000001].map
      isLegal = List.replicate 8 false := by decide

theorem test_table_word_beyond_32_bits : decodeTableWord 32 (2 ^ 32 + 0x90000000) = none := by decide

/-! ### Arithmetic (V-N1) -/

theorem test_fadd_tie_to_even : fadd 0x7FC00000 0x3F800001 0x33800000 = 0x3F800002 := by decide +kernel

theorem test_fadd_overflow_threshold :
    fadd 0x7FC00000 0x7F7FFFFF 0x73000000 = 0x7F800000 ∧
    fadd 0x7FC00000 0x7F7FFFFF 0x72FFFFFF = 0x7F7FFFFF := by decide +kernel

theorem test_fmul_double_rounding : fmul 0x7FC00000 0x3E318A86 0x009A3B32 = 0x001ABD99 := by decide +kernel

/-! ### One step of each command -/

/-- R221, the example: WRB [2,5], =4.5. -/
theorem test_wrb :
    after (fun t => (readBlk t.blk 21, readBlk t.blk 20, t.port))
      (step (presenting 0x10000015 0x40900000)) =
      some (0x40900000, 0, .busy 0 { code := .ok, data := 0 }) := by decide +kernel

/-- R222, the example: RDB 21. -/
theorem test_rdb :
    after State.port (exec (.rdb 21) (withBlk (lineBlk .rLine 2 oneToEight))) =
      some (.busy 0 { code := .ok, data := 0x40C00000 }) := by decide +kernel

/-- V-R1: RDC A2. -/
theorem test_rdc :
    after State.port (step (presenting 0x30000004 0)) =
      some (.busy 0 { code := .ok, data := 0x3FA73D75 }) := by decide +kernel

/-- V-F1 on R-line 0. -/
theorem test_fdct1_r_line :
    after State.blk (exec (.fdct1 .rLine 0) (withBlk (lineBlk .rLine 0 oneToEight))) =
      some (lineBlk .rLine 0 oneToEightOut) := by decide +kernel

/-- V-F12: the same words on a C-line. -/
theorem test_fdct1_c_line :
    after State.blk (exec (.fdct1 .cLine 6) (withBlk (lineBlk .cLine 6 oneToEight))) =
      some (lineBlk .cLine 6 oneToEightOut) := by decide +kernel

/-- V-I6: the example of R185. -/
theorem test_idct1 :
    after State.blk (exec (.idct1 .rLine 0) (withBlk (lineBlk .rLine 0 oneToEightOut))) =
      some (lineBlk .rLine 0 oneToEight) := by decide +kernel

/-- V-I13: the sign of zero at output 5. -/
theorem test_idct1_signed_zero :
    after State.blk (exec (.idct1 .rLine 0) (withBlk (Vector.replicate 64 0))) =
      some (lineBlk .rLine 0 #v[0, 0, 0, 0, 0, 0x80000000, 0, 0]) := by decide +kernel

/-- The block `b[c][r] = c*r` of V-2D3. -/
def productBlk : Vector Word 64 :=
  Vector.ofFn fun i : Fin 64 => decimalWord false (i.val / 8 * (i.val % 8)) 1

/-- V-2D3, and V-2D4: the pass order shows in the rounding. -/
theorem test_fdct2 :
    after (fun t => (readBlk t.blk 0, readBlk t.blk 1, readBlk t.blk 8, readBlk t.blk 9, t.seq))
      (exec .fdct2 (withBlk productBlk)) =
      some (0x41440000, 0xC0FF1A5D, 0xC0FF1A5E, 0x40A6039D, .idle) := by decide +kernel

/-- V-2D2: the DC term 5.0. -/
theorem test_idct2 :
    after State.blk (exec .idct2 (withBlk (writeBlk (Vector.replicate 64 0) 0 0x40A00000))) =
      some (Vector.replicate 64 0x40A00000) := by decide +kernel

/-- R223 after an illegal command (V-A2). -/
theorem test_rdst :
    after State.port (exec .rdst { State.reset with status := 1 }) =
      some (.busy 0 { code := .ok, data := 1 }) := by decide +kernel

/-- V-A1 row 11: the data word is ignored. -/
theorem test_nop :
    after (fun t => (t.port, t.blk)) (step (presenting 0x90000000 0xFFFFFFFF)) =
      some (.busy 0 { code := .ok, data := 0 }, Vector.replicate 64 0) := by decide +kernel

/-- R240: an illegal word. -/
theorem test_illegal_command :
    after (fun t => (t.port, t.status, t.blk)) (step (presenting 0x10000040 0x3F800000)) =
      some (.busy 0 { code := .illegal, data := 0 }, 1, Vector.replicate 64 0) := by decide +kernel

/-- R56: the code and the data on the port, an illegal word and then V-R1. -/
theorem test_response_signals :
    after (fun t => (t.rspValid, t.rspCode, t.rspData)) (step (presenting 0 0)) =
      some (true, some 1, some 0) ∧
    after (fun t => (t.rspValid, t.rspCode, t.rspData)) (step (presenting 0x30000004 0)) =
      some (true, some 0, some 0x3FA73D75) := by decide +kernel

/-- `withFetchWord` presents the word and leaves the data word 0. -/
theorem test_with_fetch_word :
    after State.port (step (State.reset.withFetchWord 32 0x80000000)) =
      some (.busy 0 { code := .ok, data := 0 }) := by decide +kernel

/-- R88: the example line of R221, in lower case with a comment. -/
theorem test_assemble_wrb :
    assembleLine "  wrb [2,5], =4.5 ; load".toList = some [{ word := 0x10000015, data := 0x40900000 }] := by
  decide +kernel

/-- R88: an operand out of range is refused. -/
theorem test_assemble_refuses : assembleLine "RDB 64".toList = none := by decide +kernel

/-- The family RoundTrip at one instruction. -/
theorem test_round_trip : decode (encode (.idct1 .cLine 7)) = .ok (.idct1 .cLine 7) :=
  Laws.RoundTrip.idct1 .cLine 7 rfl

/-! ### Witnesses: encoding and access -/

theorem witness_DecodeInvertsEncode :
    (Instr.rdc 12).wf = true ∧ encode (.rdc 12) = 0x3000000C ∧ decode 0x3000000C = .ok (.rdc 12) := by decide

theorem witness_OpcodeMapSelectsCommands :
    ∃ row ∈ opcodeMap, row.selects 0x3000000C = true ∧ row.selects 0x3000000D = false := by decide

/-- One word on each side of each boundary of the clauses. -/
theorem witness_IllegalWordsExactly :
    [0x0FFFFFFF, 0xA0000000, 0x10000040, 0x20000040, 0x30000010, 0x40000010, 0x50000010, 0x60000001,
      0x90000001, 0x3000000D].map isLegal = List.replicate 10 false ∧
    [0x10000000, 0x1000003F, 0x2000003F, 0x3000000C, 0x4000000F, 0x5000000F, 0x60000000, 0x90000000].map
      isLegal = List.replicate 8 true := by decide

theorem witness_WrbWritesItsWord : (20 : BitVec 6) ≠ 21 := by decide

theorem witness_RdcReturnsItsConstant : (12 : BitVec 4).toNat ≤ 12 ∧ 12 < (13 : BitVec 4).toNat := by decide

theorem witness_LinesCoverTheBlock : (21 : BitVec 6) = lineIdx .rLine 2 5 ∧ (21 : BitVec 6) = lineIdx .cLine 5 2 := by
  decide

/-! ### Witnesses: the line transforms -/

/-- BLK[8] is on no position of R-line 0, BLK[1] on none of C-line 0. -/
theorem witness_Fdct1TransformsItsLine :
    (∀ j, (8 : BitVec 6) ≠ lineIdx .rLine 0 j) ∧ (∀ j, (1 : BitVec 6) ≠ lineIdx .cLine 0 j) := by decide

theorem witness_Idct1TransformsItsLine :
    (∀ j, (56 : BitVec 6) ≠ lineIdx .rLine 0 j) ∧ (∀ j, (7 : BitVec 6) ≠ lineIdx .cLine 0 j) := by decide

theorem witness_OneDatapathForBothAxes :
    (withBlk (lineBlk .rLine 0 oneToEight)).draws = (withBlk (lineBlk .cLine 7 oneToEight)).draws ∧
    ∀ j, readBlk (withBlk (lineBlk .rLine 0 oneToEight)).blk (lineIdx .rLine 0 j) =
      readBlk (withBlk (lineBlk .cLine 7 oneToEight)).blk (lineIdx .cLine 7 j) :=
  ⟨rfl, by decide +kernel⟩

theorem witness_LinesOfOnePassCommute : (0 : BitVec 3) ≠ 7 := by decide

theorem quietNan_source : Reference.NanSource quietNan := fun _ => by
  show isNaN 0x7FC00000 = true
  decide

theorem witness_OneNanFillsTheLine :
    Reference.NanSource quietNan ∧ isNaN (elem #v[0, 0, 0, 0, 0, 0, 0, 0x7F800001] 7) = true :=
  ⟨quietNan_source, by decide⟩

/-- The boundary: MAXF/8 itself. -/
theorem maxF_eighth : |Reference.val 0x7DFFFFFF| ≤ Reference.maxF / 8 := by
  have h1 : signBit 0x7DFFFFFF = false := by decide
  have h2 : expField 0x7DFFFFFF = 251 := by decide
  have h3 : fracField 0x7DFFFFFF = 8388607 := by decide
  rw [Reference.val, Reference.maxF, h1, h2, h3]
  norm_num [abs_of_pos]

theorem witness_ConstantLineKeepsItsDcTerm :
    isFinite 0x7DFFFFFF = true ∧ |Reference.val 0x7DFFFFFF| ≤ Reference.maxF / 8 :=
  ⟨by decide, maxF_eighth⟩

/-! ### Witnesses: the 2D commands -/

theorem witness_SequencerFollowsTheSchedule :
    ({ State.reset with seq := .run .fwd2 15 } : State).seq = .run .fwd2 15 ∧
    ({ State.reset with seq := .run .inv2 0 } : State).seq = .run .inv2 0 := ⟨rfl, rfl⟩

theorem witness_ConstantBlockKeepsItsDcTerm :
    isFinite 0x7DFFFFFF = true ∧ |Reference.val 0x7DFFFFFF| ≤ Reference.maxF / 8 ∧
    ∀ i, readBlk (withBlk (Vector.replicate 64 0x7DFFFFFF)).blk i = 0x7DFFFFFF :=
  ⟨by decide, maxF_eighth, readBlk_replicate 0x7DFFFFFF⟩

/-- MAXF in the DC term (V-2D2). -/
theorem witness_DcTermFillsTheBlock :
    isFinite 0x7F7FFFFF = true ∧ isZero 0x7F7FFFFF = false ∧
    readBlk (withBlk (writeBlk (Vector.replicate 64 0) 0 0x7F7FFFFF)).blk 0 = 0x7F7FFFFF ∧
    ∀ i, i ≠ 0 → readBlk (withBlk (writeBlk (Vector.replicate 64 0) 0 0x7F7FFFFF)).blk i = 0 :=
  ⟨by decide, by decide, by decide +kernel, by decide +kernel⟩

theorem witness_OneNanFillsTheBlock :
    isNaN (readBlk (withBlk (writeBlk (Vector.replicate 64 0) 63 0xFF800001)).blk 63) = true := by
  decide +kernel

/-- Two blocks that differ in the bits of one NaN. -/
theorem witness_TransformsDependOnTheBlockAlone :
    isTransform .fdct2 = true ∧
    SameBlock (withBlk (writeBlk (Vector.replicate 64 0) 9 0x7FC00000)).blk
      (withBlk (writeBlk (Vector.replicate 64 0) 9 0xFF800001)).blk := by
  refine ⟨rfl, fun i => ?_⟩
  by_cases h : i = 9
  · subst h
    exact .inr ⟨by decide +kernel, by decide +kernel⟩
  · exact .inl ((readBlk_writeBlk_other _ _ h).trans (readBlk_writeBlk_other _ _ h).symm)

/-! ### Witnesses: arithmetic and the ROM -/

theorem witness_RoundingIsRne : 0 < 2 ^ 149 := by norm_num

/-- A tie: 2^24 + 1 units, half way between the words 0x00800000 * 2 and the next. -/
theorem witness_RoundingIsNearestEven :
    (0 : ℕ) < 2 ^ 24 + 1 ∧ 0 < 1 ∧ isFinite (rne false (2 ^ 24 + 1) 1 false) = true ∧
    isFinite 0x01000001 = true ∧
    Reference.val 0x01000001 ≠ Reference.val (rne false (2 ^ 24 + 1) 1 false) ∧
    |Reference.val (rne false (2 ^ 24 + 1) 1 false) - unitsVal false (2 ^ 24 + 1) 1| =
      |Reference.val 0x01000001 - unitsVal false (2 ^ 24 + 1) 1| := by
  have hr : rne false (2 ^ 24 + 1) 1 false = 0x01000000 := by decide +kernel
  have e0 : Reference.val 0x01000000 = 2 ^ 24 * (2 : ℚ) ^ (-149 : ℤ) := by
    have h1 : signBit 0x01000000 = false := by decide
    have h2 : expField 0x01000000 = 2 := by decide
    have h3 : fracField 0x01000000 = 0 := by decide
    rw [Reference.val, h1, h2, h3]
    norm_num
  have e1 : Reference.val 0x01000001 = (2 ^ 24 + 2) * (2 : ℚ) ^ (-149 : ℤ) := by
    have h1 : signBit 0x01000001 = false := by decide
    have h2 : expField 0x01000001 = 2 := by decide
    have h3 : fracField 0x01000001 = 1 := by decide
    rw [Reference.val, h1, h2, h3]
    norm_num
  rw [hr, e0, e1, unitsVal]
  refine ⟨by norm_num, by norm_num, by decide, by decide, by norm_num, ?_⟩
  norm_num

/-- The threshold itself is infinite, and one unit less is not. -/
theorem witness_OverflowThreshold :
    (0 : ℕ) < 1 ∧ isInf (rne true (2 ^ 277 - 2 ^ 252) 1 false) = true ∧
    isInf (rne true (2 ^ 277 - 2 ^ 252 - 1) 1 false) = false := by decide +kernel

theorem witness_FaddIsR112 :
    isNaN 0x7FC00000 = true ∧ isNaN (fadd 0x7FC00000 0x7F800000 0x3F800000) = false := by decide +kernel

theorem witness_FmulIsR114 :
    isNaN 0x7FC00000 = true ∧ isNaN (fmul 0x7FC00000 0x7F800000 0xBF800000) = false := by decide +kernel

theorem witness_FsubIsAdditionOfTheNegated :
    isNaN 0x7F800000 = false ∧ isNaN 0x7F800001 = true ∧ isFinite 0x7F7FFFFF = true := by decide

theorem witness_NanPatternsAreAllAndOnlyNans :
    isNaN 0xFF800001 = true ∧ nanWord 0x80000001 = 0xFF800001 := by decide

theorem witness_NanBitsNeverMatter :
    Reference.NanSource quietNan ∧ Reference.NanSource (fun _ => 0xFF800001) ∧
    ∀ j, Reference.SameOrNaN (elem oneToEight j) (elem oneToEight j) :=
  ⟨quietNan_source, fun _ => by show isNaN 0xFF800001 = true; decide, fun _ => .inl rfl⟩

/-- Both cases of the premise with the constant a1: x = 0; x = 2^-123, near the lower end; and the largest x whose
product with a1 is below OVF. -/
theorem witness_ScalingByKCommutesWithRounding :
    (isFinite 0 = true ∧ Reference.val romTable[0] * Reference.val 0 = 0) ∧
    (isFinite 0x02000000 = true ∧
      (2 : ℚ) ^ (-123 : ℤ) ≤ |Reference.val romTable[0] * Reference.val 0x02000000| ∧
      |Reference.val romTable[0] * Reference.val 0x02000000| < 2 ^ 128 - 2 ^ 103) ∧
    (isFinite 0x7F3890D1 = true ∧
      (2 : ℚ) ^ (-123 : ℤ) ≤ |Reference.val romTable[0] * Reference.val 0x7F3890D1| ∧
      |Reference.val romTable[0] * Reference.val 0x7F3890D1| < 2 ^ 128 - 2 ^ 103) ∧
    2 ^ 128 - 2 ^ 103 ≤ |Reference.val romTable[0] * Reference.val 0x7F3890D2| := by
  have z : Reference.val 0 = 0 := by
    have h1 : signBit 0 = false := by decide
    have h2 : expField 0 = 0 := by decide
    have h3 : fracField 0 = 0 := by decide
    rw [Reference.val, h1, h2, h3]
    norm_num
  have x : Reference.val 0x02000000 = (2 : ℚ) ^ (-123 : ℤ) := by
    have h1 : signBit 0x02000000 = false := by decide
    have h2 : expField 0x02000000 = 4 := by decide
    have h3 : fracField 0x02000000 = 0 := by decide
    rw [Reference.val, h1, h2, h3]
    norm_num
  have a : Reference.val romTable[0] = 11635334 * (2 : ℚ) ^ (-23 : ℤ) := by
    have h1 : signBit romTable[0] = false := by decide
    have h2 : expField romTable[0] = 127 := by decide
    have h3 : fracField romTable[0] = 3246726 := by decide
    rw [Reference.val, h1, h2, h3]
    norm_num
  have top : Reference.val 0x7F3890D1 = 12095697 * 2 ^ 104 := by
    have h1 : signBit 0x7F3890D1 = false := by decide
    have h2 : expField 0x7F3890D1 = 254 := by decide
    have h3 : fracField 0x7F3890D1 = 3707089 := by decide
    rw [Reference.val, h1, h2, h3]
    norm_num
  have above : Reference.val 0x7F3890D2 = 12095698 * 2 ^ 104 := by
    have h1 : signBit 0x7F3890D2 = false := by decide
    have h2 : expField 0x7F3890D2 = 254 := by decide
    have h3 : fracField 0x7F3890D2 = 3707090 := by decide
    rw [Reference.val, h1, h2, h3]
    norm_num
  rw [z, x, a, top, above]
  refine ⟨⟨by decide, by norm_num⟩, ⟨by decide, ?_, ?_⟩, ⟨by decide, ?_, ?_⟩, ?_⟩ <;>
    norm_num [abs_of_pos]

/-! ### Witnesses: IllegalCommand, the port, the step -/

theorem witness_IllegalCommandSetsIllAndAnswers : decode 0 = .error .reservedOpcode := by decide

theorem witness_LegalCommandsAnswerOk : decode 0x90000000 = .ok .nop := by decide

/-- Each clause: an illegal word sets ILL; a reset clears it. -/
theorem witness_IllIsStickyUntilReset :
    (∃ t, step (presenting 0 0) = .next t ∧ (presenting 0 0).ill = false ∧ t.ill = true) ∧
    (∃ t, step { State.reset with status := 1, inputs := [rstEdge] } = .next t ∧
      ({ State.reset with status := 1, inputs := [rstEdge] } : State).ill = true ∧ t.ill = false) := by
  refine ⟨⟨_, rfl, by decide, ?_⟩, ⟨_, clockEdge_reset _ rfl, by decide, ?_⟩⟩
  · simp [State.ill]
  · simp [State.ill]

theorem witness_IllAltersNoCommand : (Instr.rdb 0) ≠ .rdst := by decide

theorem witness_StepRunsThePresentedCommand :
    ((presenting 0x60000000 0).port = .idle ∧ (presenting 0x60000000 0).nextInput.rst = false ∧
      (presenting 0x60000000 0).nextInput.cmdValid = true ∧
      decode (presenting 0x60000000 0).nextInput.cmdWord = .ok .fdct2) ∧
    decodeTableWord 32 0x70000000 = some .idct2 := by decide

theorem witness_DataWordIsIgnoredButByWrb :
    (∀ idx, decode 0x20000000 ≠ .ok (.wrb idx)) ∧ (∀ idx, decode 0x10000040 ≠ .ok (.wrb idx)) := by decide

/-- Waiting; and the response presented, with the host not ready and with it ready. -/
theorem witness_BusyCoreOnlyAnswers :
    ((busyWith 1 takeEdge).port = .busy 1 { code := .ok, data := 7 } ∧
      (busyWith 1 takeEdge).nextInput.rst = false ∧ 0 < 1) ∧
    ((busyWith 0 (presentEdge { word := 0, data := 0 })).port = .busy 0 { code := .ok, data := 7 } ∧
      (busyWith 0 (presentEdge { word := 0, data := 0 })).nextInput.rst = false ∧
      (busyWith 0 (presentEdge { word := 0, data := 0 })).nextInput.rspReady = false) ∧
    ((busyWith 0 takeEdge).port = .busy 0 { code := .ok, data := 7 } ∧
      (busyWith 0 takeEdge).nextInput.rst = false ∧ (busyWith 0 takeEdge).nextInput.rspReady = true) := by
  decide

theorem witness_ResetWinsOverEverything : (busyWith 3 rstEdge).nextInput.rst = true := by decide

/-- A pending ILLEGAL response, and the step that takes it. -/
theorem witness_StepKeepsLegal :
    ∃ s t : State, s.legal = true ∧ step s = .next t ∧ s.responseOk = true ∧ t.port = .idle ∧
      ∃ w, s.port = .busy w { code := .illegal, data := 0 } :=
  ⟨{ State.reset with status := 1, port := .busy 0 { code := .illegal, data := 0 }, inputs := [takeEdge] },
    _, by decide +kernel, rfl, by decide +kernel, rfl, 0, rfl⟩

theorem witness_BlockChangesOnlyByItsWriters :
    ∃ t, step (presenting 0x1000003F 5) = .next t ∧ t.blk ≠ (presenting 0x1000003F 5).blk := by
  refine ⟨_, rfl, fun h => ?_⟩
  have := congrArg (fun b => readBlk b 63) h
  revert this
  decide +kernel

/-- With a latency of 3 for FDCT2: the script exactly as long as the latency, and a longer one. -/
theorem witness_ClockedCommandIsOneTransaction :
    ({ State.reset with
        lat := { Latencies.simulator with block := 3 }
        inputs := commandScript { word := 0x60000000, data := 0 } 2 1 ++ [rstEdge] } : State).port = .idle ∧
      1 ≤ 1 ∧ latencyOf { Latencies.simulator with block := 3 } 0x60000000 = 2 + 1 ∧
      latencyOf { Latencies.simulator with block := 3 } 0x60000000 ≤ 2 + 4 := by decide

theorem witness_ProgramsAnswerEveryCommand : State.reset.port = .idle := rfl

theorem witness_AssemblerEmitsLegalCommands :
    parseStatement ['F', 'P', 'A', 'S', 'S'] [['C']] = some (.pseudo (.fpass .cLine)) ∧
    (∀ w, AsmLine.pseudo (.fpass .cLine) ≠ .raw w) ∧
    plainCmd (.fdct1 .cLine 7) ∈ (AsmLine.pseudo (.fpass .cLine)).cmds ∧
    (∀ idx, decode (plainCmd (.fdct1 .cLine 7)).word ≠ .ok (.wrb idx)) := by
  refine ⟨by decide, fun w h => ?_, by decide, by decide⟩
  injection h

/-- Core 0 exists and moves; core 1 is another. -/
theorem witness_CoresDoNotInteract :
    (1 : Nat) ≠ 0 ∧ ([presenting 0x1000003F 5, State.reset] : System)[0]? = some (presenting 0x1000003F 5) ∧
    (match systemStep 0 [presenting 0x1000003F 5, State.reset] with
      | .next y => y.map fun s => readBlk s.blk 63
      | _ => []) = [5, 0] := by
  refine ⟨by decide, rfl, by decide +kernel⟩

end Sys2Proof.Tests
end

/-! ## The state: what a step keeps of it (spec/10_state.md)

One case lemma each for acceptance, for the busy port and for ILL; the statements about every step follow from
`step_cases` and these. -/

namespace Sys2Proof.Machine

open Claims

/-! ### What acceptance does to STATUS, SEQ, the port and the block -/

theorem wf_of_whenZero {z : Bool} {i j : Instr} (hi : i.wf = true) (h : whenZero z i = .ok j) :
    j.wf = true := by
  cases z with
  | true => injection h with h; exact h ▸ hi
  | false => injection h

theorem wf_of_decodeRdc {w : Word} {i : Instr} (h : decodeRdc w = .ok i) : i.wf = true := by
  unfold decodeRdc at h
  split_ifs at h with hz hk
  injection h with h
  subst h
  simpa [Instr.wf] using hk

/-- The decoder gives well-formed commands only (30_encoding.md R84). -/
theorem wf_of_decode {w : Word} {i : Instr} (h : decode w = .ok i) : i.wf = true := by
  unfold decode at h
  split_ifs at h
  any_goals exact wf_of_whenZero rfl h
  exact wf_of_decodeRdc h

theorem isLegal_of_decode_ok {w : Word} {i : Instr} (h : decode w = .ok i) : isLegal w = true := by
  simp [isLegal, h]

theorem isLegal_of_decode_error {w : Word} {e : Illegal} (h : decode w = .error e) :
    isLegal w = false := by
  simp [isLegal, h]

/-- What a legal command leaves of what `State.legal` speaks of: `s`'s STATUS, an idle SEQ idle, an OK response. -/
def AnsweredOk (s t : State) : Prop :=
  t.status = s.status ∧ (s.seq = .idle → t.seq = .idle) ∧ ∃ w d, t.port = .busy w { code := .ok, data := d }

theorem answeredOk_respond {s u : State} (l : Nat) (d : Word) (hst : u.status = s.status)
    (hseq : s.seq = .idle → u.seq = .idle) : AnsweredOk s (respond l .ok d u) :=
  ⟨hst, hseq, l - 1, d, rfl⟩

/-- A well-formed command answers OK, keeps STATUS and leaves an idle SEQ idle (10_state.md R25, R27). -/
theorem exec_answeredOk {i : Instr} {s t : State} (hwf : i.wf = true) (h : exec i s = .next t) :
    AnsweredOk s t := by
  cases i with
  | wrb idx => rw [exec_wrb] at h; obtain rfl := next_inj h; exact answeredOk_respond _ _ rfl id
  | rdb idx => rw [exec_rdb] at h; obtain rfl := next_inj h; exact answeredOk_respond _ _ rfl id
  | rdc k =>
    cases hk : romSlot k with
    | some w => rw [exec_rdc_some s hk] at h; obtain rfl := next_inj h; exact answeredOk_respond _ _ rfl id
    | none =>
      have hle : k.toNat ≤ 12 := by simpa [Instr.wf] using hwf
      exact absurd ((romSlot_eq_none_iff k).mp hk) (by omega)
  | fdct1 axis n => rw [exec_fdct1] at h; obtain rfl := next_inj h; exact answeredOk_respond _ _ rfl id
  | idct1 axis n => rw [exec_idct1] at h; obtain rfl := next_inj h; exact answeredOk_respond _ _ rfl id
  | fdct2 =>
    rw [exec_fdct2] at h
    obtain rfl := next_inj h
    exact answeredOk_respond _ _ (runSequencer_datapathOnly .fwd2 s).1 fun _ => runSequencer_seq ..
  | idct2 =>
    rw [exec_idct2] at h
    obtain rfl := next_inj h
    exact answeredOk_respond _ _ (runSequencer_datapathOnly .inv2 s).1 fun _ => runSequencer_seq ..
  | rdst => rw [exec_rdst] at h; obtain rfl := next_inj h; exact answeredOk_respond _ _ rfl id
  | nop => rw [exec_nop] at h; obtain rfl := next_inj h; exact answeredOk_respond _ _ rfl id

/-- What acceptance can be: a legal word is answered OK, an illegal one raises IllegalCommand (60_exceptions.md R240). -/
theorem accept_cases {c : Cmd} {s t : State} (h : accept c s = .next t) :
    (isLegal c.word = true ∧ AnsweredOk s t) ∨
    (isLegal c.word = false ∧ t = raiseIllegalCommand { s with cmd := c }) := by
  cases hd : decode c.word with
  | ok i =>
    rw [accept_ok s hd] at h
    exact .inl ⟨isLegal_of_decode_ok hd, (exec_answeredOk (wf_of_decode hd) h :)⟩
  | error e =>
    rw [accept_illegal s hd] at h
    exact .inr ⟨isLegal_of_decode_error hd, (next_inj h).symm⟩

/-! ### The edges of a busy core -/

@[simp] theorem busyEdge_blk (b : Bool) (w : Nat) (r : Response) (s : State) :
    (busyEdge b w r s).blk = s.blk := by
  cases w <;> cases b <;> rfl
@[simp] theorem busyEdge_status (b : Bool) (w : Nat) (r : Response) (s : State) :
    (busyEdge b w r s).status = s.status := by
  cases w <;> cases b <;> rfl
@[simp] theorem busyEdge_seq (b : Bool) (w : Nat) (r : Response) (s : State) :
    (busyEdge b w r s).seq = s.seq := by
  cases w <;> cases b <;> rfl
@[simp] theorem busyEdge_lat (b : Bool) (w : Nat) (r : Response) (s : State) :
    (busyEdge b w r s).lat = s.lat := by
  cases w <;> cases b <;> rfl

/-- A busy port stays busy with its response or becomes idle (20_memory.md R53, R57). -/
theorem busyEdge_port (b : Bool) {w : Nat} {r : Response} {s : State} (hp : s.port = .busy w r) :
    (busyEdge b w r s).port = .idle ∨ ∃ w', (busyEdge b w r s).port = .busy w' r := by
  cases w with
  | succ w => exact .inr ⟨w, rfl⟩
  | zero =>
    cases b with
    | true => exact .inl rfl
    | false => exact .inr ⟨0, hp⟩

/-! ### Legal states -/

theorem legal_iff (s : State) :
    s.legal = true ↔ s.reservedStatusZero = true ∧ s.seq = .idle ∧ s.responseOk = true ∧
      s.lat.positive = true := by
  simp [State.legal, and_assoc]

theorem ill_congr {s t : State} (h : t.status = s.status) : t.ill = s.ill := by
  rw [State.ill, State.ill, h]

theorem reservedStatusZero_congr {s t : State} (h : t.status = s.status) :
    t.reservedStatusZero = s.reservedStatusZero := by
  rw [State.reservedStatusZero, State.reservedStatusZero, h]

theorem responseOk_idle {s : State} (h : s.port = .idle) : s.responseOk = true := by
  simp [State.responseOk, h]

theorem responseOk_busy {s : State} {w : Nat} {r : Response} (h : s.port = .busy w r) :
    s.responseOk = (r.code == .ok || (r.data == 0 && s.ill)) := by
  simp [State.responseOk, h]

theorem ill_raiseIllegalCommand (s : State) : (raiseIllegalCommand s).ill = true := by
  simp [State.ill]

theorem reservedStatusZero_raiseIllegalCommand (s : State) :
    (raiseIllegalCommand s).reservedStatusZero = s.reservedStatusZero := by
  have bit0 : (1#32).extractLsb' 1 31 = 0#31 := by decide
  rw [State.reservedStatusZero, raiseIllegalCommand_status, BitVec.extractLsb'_or, bit0, BitVec.or_zero,
    State.reservedStatusZero]

theorem legal_resetEdge {s : State} (h : s.legal = true) : (resetEdge s).legal = true := by
  obtain ⟨_, _, _, hlat⟩ := (legal_iff s).mp h
  exact (legal_iff _).mpr ⟨by simp [State.reservedStatusZero], rfl, responseOk_idle rfl, by simpa using hlat⟩

theorem legal_accept {c : Cmd} {s t : State} (hs : s.legal = true) (h : accept c s = .next t) :
    t.legal = true := by
  obtain ⟨hres, hseq, _, hpos⟩ := (legal_iff s).mp hs
  obtain ⟨_, _, _, hlat, _⟩ := accept_spec h
  rcases accept_cases h with ⟨_, hst, hseq', w, d, hport⟩ | ⟨_, rfl⟩
  · refine (legal_iff t).mpr ⟨?_, hseq' hseq, ?_, hlat ▸ hpos⟩
    · rw [reservedStatusZero_congr hst]; exact hres
    · rw [responseOk_busy hport]; rfl
  · refine (legal_iff _).mpr ⟨?_, hseq, ?_, hpos⟩
    · rw [reservedStatusZero_raiseIllegalCommand]; exact hres
    · rw [responseOk_busy (raiseIllegalCommand_port _), ill_raiseIllegalCommand]; rfl

theorem legal_busyEdge (b : Bool) {w : Nat} {r : Response} {s : State} (hp : s.port = .busy w r)
    (hs : s.legal = true) : (busyEdge b w r s).legal = true := by
  obtain ⟨hres, hseq, hrsp, hpos⟩ := (legal_iff s).mp hs
  have hst := busyEdge_status b w r s
  refine (legal_iff _).mpr ⟨?_, by simpa using hseq, ?_, by simpa using hpos⟩
  · rw [reservedStatusZero_congr hst]; exact hres
  · rcases busyEdge_port b hp with hp' | ⟨w', hp'⟩
    · exact responseOk_idle hp'
    · rw [responseOk_busy hp', ill_congr hst, ← responseOk_busy hp]; exact hrsp

/-- Settles O52: each of the four kinds of edge keeps a legal state legal. -/
theorem stepKeepsLegal : Obligations.StepKeepsLegal := by
  intro s t hs h
  have hd : s.dropInput.legal = true := hs
  rcases step_cases h with ⟨_, rfl⟩ | ⟨_, _, _, ha⟩ | ⟨_, _, _, rfl⟩ | ⟨w, r, _, hp, rfl⟩
  · exact legal_resetEdge hd
  · exact legal_accept hd ha
  · exact hd
  · exact legal_busyEdge _ hp hd

/-- Settles O51: STATUS 0, an idle SEQ and an idle port make the four parts of a legal state. -/
theorem resetStateIsLegal : Obligations.ResetStateIsLegal := by
  have hlegal : State.reset.legal = true := (legal_iff _).mpr ⟨rfl, rfl, responseOk_idle rfl, rfl⟩
  exact ⟨rfl, rfl, rfl, rfl, rfl, hlegal⟩

/-! ### ILL -/

/-- What a step can do to ILL: nothing, reset, or the acceptance of an illegal word. -/
theorem step_ill_cases {s t : State} (h : step s = .next t) :
    t.ill = s.ill ∨ (s.nextInput.rst = true ∧ t.ill = false) ∨
    (t.ill = true ∧ s.port = .idle ∧ s.nextInput.rst = false ∧ s.nextInput.cmdValid = true ∧
      isLegal s.nextInput.cmdWord = false) := by
  rcases step_cases h with ⟨hr, rfl⟩ | ⟨hr, hp, hv, ha⟩ | ⟨_, _, _, rfl⟩ | ⟨w, r, _, _, rfl⟩
  · exact .inr (.inl ⟨hr, by simp [State.ill]⟩)
  · rcases accept_cases ha with ⟨_, hst, _⟩ | ⟨hw, rfl⟩
    · exact .inl (ill_congr hst)
    · exact .inr (.inr ⟨ill_raiseIllegalCommand _, hp, hr, hv, hw⟩)
  · exact .inl rfl
  · exact .inl (ill_congr (busyEdge_status ..))

/-- Settles O44: ILL differs after a step only by one of the two causes, and each moves it one way. -/
theorem illIsStickyUntilReset : Obligations.IllIsStickyUntilReset := by
  intro s t h
  rcases step_ill_cases h with hkept | ⟨hrst, hclear⟩ | ⟨hset, hcause⟩
  · simp_all
  · simp_all
  · exact ⟨fun _ _ => hcause, fun _ ht => by simp_all⟩

/-! ### The block store -/

/-- A command that is not one of the block's writers leaves it as it is (10_state.md R21). -/
theorem exec_blk_of_not_writesBlock {i : Instr} {s t : State} (hi : writesBlock i = false)
    (h : exec i s = .next t) : t.blk = s.blk := by
  cases i with
  | wrb _ | fdct1 _ _ | idct1 _ _ | fdct2 | idct2 => simp [writesBlock] at hi
  | rdb idx => rw [exec_rdb] at h; obtain rfl := next_inj h; rfl
  | rdc k =>
    cases hk : romSlot k with
    | some w => rw [exec_rdc_some s hk] at h; obtain rfl := next_inj h; rfl
    | none => rw [exec_rdc_none s hk] at h; obtain rfl := next_inj h; rfl
  | rdst => rw [exec_rdst] at h; obtain rfl := next_inj h; rfl
  | nop => rw [exec_nop] at h; obtain rfl := next_inj h; rfl

/-- Acceptance changes the block only for a word that decodes to one of its writers. -/
theorem accept_blk {c : Cmd} {s t : State} (h : accept c s = .next t) (hne : t.blk ≠ s.blk) :
    ∃ i, decode c.word = .ok i ∧ writesBlock i = true := by
  cases hd : decode c.word with
  | ok i =>
    rw [accept_ok s hd] at h
    refine ⟨i, rfl, ?_⟩
    by_contra hi
    exact hne (exec_blk_of_not_writesBlock (Bool.eq_false_of_not_eq_true hi) h :)
  | error e =>
    rw [accept_illegal s hd] at h
    obtain rfl := next_inj h
    exact absurd rfl hne

/-- Settles O53: an idle edge and an edge of the busy port keep the block, so only reset and acceptance are left. -/
theorem blockChangesOnlyByItsWriters : Obligations.BlockChangesOnlyByItsWriters := by
  intro s t h hne
  rcases step_cases h with ⟨hr, _⟩ | ⟨_, hp, hv, ha⟩ | ⟨_, _, _, rfl⟩ | ⟨w, r, _, _, rfl⟩
  · exact .inl hr
  · have hw := accept_blk ha (by rwa [dropInput_blk])
    exact .inr ⟨hp, hv, hw⟩
  · exact absurd (dropInput_blk s) hne
  · exact absurd (by rw [busyEdge_blk, dropInput_blk]) hne

/-! ### Lines and the schedule -/

theorem toNat_blockIdx (c r : BitVec 3) : (blockIdx c r).toNat = 8 * c.toNat + r.toNat := by
  revert c r; decide

/-- Settles O11: an index has one line and one position on each axis, its two coordinates. -/
theorem linesCoverTheBlock : Obligations.LinesCoverTheBlock := by
  refine ⟨fun n j => ⟨toNat_blockIdx n j, toNat_blockIdx j n⟩, fun axis i => ?_⟩
  refine ⟨lineOf axis i, posOf axis i, (lineIdx_lineOf_posOf axis i).symm, fun n' j' h => ?_⟩
  obtain ⟨hn, hj⟩ := (eq_lineIdx_iff axis n' j' i).mp h
  exact ⟨hn.symm, hj.symm⟩

theorem seqLine_eq (t : BitVec 4) : seqLine t = BitVec.ofNat 3 (t.toNat % 8) := by
  revert t; decide

theorem seqAxis_fwd2 (t : BitVec 4) : seqAxis .fwd2 t = if t.toNat < 8 then .rLine else .cLine := by
  revert t; decide

theorem seqAxis_inv2 (t : BitVec 4) : seqAxis .inv2 t = if t.toNat < 8 then .cLine else .rLine := by
  revert t; decide

/-- The step number after `t`, as a number. -/
theorem seqNext_eq (kind : SeqKind) (t : BitVec 4) :
    (if t = 15 then Seq.idle else .run kind (t + 1)) =
      if t.toNat = 15 then .idle else .run kind (BitVec.ofNat 4 (t.toNat + 1)) := by
  cases kind <;> revert t <;> decide

theorem seqStep_blk {s : State} {kind : SeqKind} {t : BitVec 4} (h : s.seq = .run kind t) :
    (seqStep s).blk =
      transformLine (seqLine1d kind (nanDraw s.draws)) (seqAxis kind t) (seqLine t) s.blk := by
  rw [seqStep_run h]; exact seqTransform_blk ..

/-- Settles O23: the axis, the line and the successor of each of the sixteen steps are those of R202's table. -/
theorem sequencerFollowsTheSchedule : Obligations.SequencerFollowsTheSchedule := by
  refine ⟨fun s t h => ⟨?_, ?_⟩, fun s t h => ⟨?_, ?_⟩⟩
  · rw [seqStep_blk h, seqAxis_fwd2, seqLine_eq]; rfl
  · rw [seqStep_seq h, seqNext_eq]
  · rw [seqStep_blk h, seqAxis_inv2, seqLine_eq]; rfl
  · rw [seqStep_seq h, seqNext_eq]

end Sys2Proof.Machine

/-! ## What a transform depends on (spec/10_state.md R33, 40_numerics.md R124)

A relation that the operations keep is kept by the line transforms and by the passes; equality up to NaN bits is such
a relation, whatever the two runs draw. -/

namespace Sys2Proof.Machine

open Claims Reference

/-- Two lines of eight related position by position. -/
def LineRel {α β : Type} (R : α → β → Prop) (v : Vector α 8) (w : Vector β 8) : Prop :=
  ∀ j, R (elem v j) (elem w j)

/-- Two families of operations that take related operands to related results. -/
def OpRel {α β : Type} (R : α → β → Prop) (op : Nat → α → α → α) (op' : Nat → β → β → β) : Prop :=
  ∀ i x y x' y', R x x' → R y y' → R (op i x y) (op' i x' y')

/-- Two block stores related word by word. -/
def BlkRel {α β : Type} (R : α → β → Prop) (b : Vector α 64) (c : Vector β 64) : Prop :=
  ∀ i, R (readBlk b i) (readBlk c i)

section
variable {α β : Type} {R : α → β → Prop}

theorem lineRel_getElem {v : Vector α 8} {w : Vector β 8} (h : LineRel R v w) (k : Nat) (hk : k < 8) :
    R v[k] w[k] := by
  simpa [elem, Nat.mod_eq_of_lt hk] using h (BitVec.ofNat 3 k)

theorem lineRel_mk {a0 a1 a2 a3 a4 a5 a6 a7 : α} {b0 b1 b2 b3 b4 b5 b6 b7 : β}
    (h0 : R a0 b0) (h1 : R a1 b1) (h2 : R a2 b2) (h3 : R a3 b3)
    (h4 : R a4 b4) (h5 : R a5 b5) (h6 : R a6 b6) (h7 : R a7 b7) :
    LineRel R #v[a0, a1, a2, a3, a4, a5, a6, a7] #v[b0, b1, b2, b3, b4, b5, b6, b7] := by
  intro j
  rcases position_cases j with rfl | rfl | rfl | rfl | rfl | rfl | rfl | rfl <;> assumption

variable {add sub mul : Nat → α → α → α} {add' sub' mul' : Nat → β → β → β}
  {neg : α → α} {neg' : β → β} {rom : Vector α 13} {rom' : Vector β 13}

/-- Each output of FWD1D is a term in the operations, the inputs and the ROM words. -/
theorem lineRel_fwd1dWith (hadd : OpRel R add add') (hsub : OpRel R sub sub') (hmul : OpRel R mul mul')
    (hrom : ∀ (k : Nat) (hk : k < 13), R rom[k] rom'[k]) {v : Vector α 8} {v' : Vector β 8}
    (hv : LineRel R v v') :
    LineRel R (fwd1dWith add sub mul rom v) (fwd1dWith add' sub' mul' rom' v') := by
  have hin := lineRel_getElem hv
  apply lineRel_mk <;> apply_rules [hadd, hsub, hmul, hrom, hin]

/-- Each output of INV1D is a term in the operations, the inputs and the ROM words. -/
theorem lineRel_inv1dWith (hadd : OpRel R add add') (hsub : OpRel R sub sub') (hmul : OpRel R mul mul')
    (hneg : ∀ x x', R x x' → R (neg x) (neg' x'))
    (hrom : ∀ (k : Nat) (hk : k < 13), R rom[k] rom'[k]) {v : Vector α 8} {v' : Vector β 8}
    (hv : LineRel R v v') :
    LineRel R (inv1dWith add sub mul neg rom v) (inv1dWith add' sub' mul' neg' rom' v') := by
  have hin := lineRel_getElem hv
  apply lineRel_mk <;> apply_rules [hadd, hsub, hmul, hneg, hrom, hin]

theorem lineRel_gather {b : Vector α 64} {c : Vector β 64} (h : BlkRel R b c) (axis : Axis) (n : BitVec 3) :
    LineRel R (gather b axis n) (gather c axis n) := fun j => by
  simpa using h (lineIdx axis n j)

theorem blkRel_transformLine {f : Vector α 8 → Vector α 8} {g : Vector β 8 → Vector β 8}
    (hfg : ∀ v w, LineRel R v w → LineRel R (f v) (g w)) (axis : Axis) (n : BitVec 3)
    {b : Vector α 64} {c : Vector β 64} (h : BlkRel R b c) :
    BlkRel R (transformLine f axis n b) (transformLine g axis n c) := fun i => by
  rw [readBlk_transformLine, readBlk_transformLine]
  split
  · exact hfg _ _ (lineRel_gather h axis n) _
  · exact h i

theorem blkRel_passBlk {f : BitVec 3 → Vector α 8 → Vector α 8} {g : BitVec 3 → Vector β 8 → Vector β 8}
    (hfg : ∀ n v w, LineRel R v w → LineRel R (f n v) (g n w)) (axis : Axis)
    {b : Vector α 64} {c : Vector β 64} (h : BlkRel R b c) :
    BlkRel R (passBlk f axis b) (passBlk g axis c) := fun i => by
  rw [readBlk_passBlk, readBlk_passBlk]
  exact hfg _ _ _ (lineRel_gather h axis _) _

theorem blkRel_transformBlk {f : BitVec 4 → Vector α 8 → Vector α 8} {g : BitVec 4 → Vector β 8 → Vector β 8}
    (hfg : ∀ t v w, LineRel R v w → LineRel R (f t v) (g t w)) (kind : SeqKind)
    {b : Vector α 64} {c : Vector β 64} (h : BlkRel R b c) :
    BlkRel R (transformBlk kind f b) (transformBlk kind g c) :=
  blkRel_passBlk (fun _ => hfg _) _ (blkRel_passBlk (fun _ => hfg _) _ h)

end

/-! ### Transforms and the bits of NaNs -/

/-- The hardware's line transforms keep equality up to NaN bits, whatever the two sources of NAN_OUT
(40_numerics.md R117, R124). -/
theorem sameOrNaN_seqLine1d (kind : SeqKind) {nan nan' : Nat → Word} (hn : NanSource nan) (hn' : NanSource nan')
    {v v' : Vector Word 8} (hv : LineRel SameOrNaN v v') :
    LineRel SameOrNaN (seqLine1d kind nan v) (seqLine1d kind nan' v') := by
  have hadd : OpRel SameOrNaN (fun i => fadd (nan i)) (fun i => fadd (nan' i)) :=
    fun i _ _ _ _ => sameOrNaN_fadd (hn i) (hn' i)
  have hsub : OpRel SameOrNaN (fun i => fsub (nan i)) (fun i => fsub (nan' i)) :=
    fun i _ _ _ _ => sameOrNaN_fsub (hn i) (hn' i)
  have hmul : OpRel SameOrNaN (fun i => fmul (nan i)) (fun i => fmul (nan' i)) :=
    fun i _ _ _ _ => sameOrNaN_fmul (hn i) (hn' i)
  cases kind with
  | fwd2 => exact lineRel_fwd1dWith hadd hsub hmul (fun _ _ => sameOrNaN_refl _) hv
  | inv2 =>
    exact lineRel_inv1dWith hadd hsub hmul (fun _ _ => sameOrNaN_fneg) (fun _ _ => sameOrNaN_refl _) hv

theorem nanSource_nanDraw (d : Nat) : NanSource (nanDraw d) := isNaN_nanDraw d

/-- The sequencer's line transforms with the draws of two runs. -/
theorem sameOrNaN_seqLine1d_nanDraw (kind : SeqKind) (d d' : Nat) (v v' : Vector Word 8)
    (hv : LineRel SameOrNaN v v') :
    LineRel SameOrNaN (seqLine1d kind (nanDraw d) v) (seqLine1d kind (nanDraw d') v') :=
  sameOrNaN_seqLine1d kind (nanSource_nanDraw d) (nanSource_nanDraw d') hv

theorem sameBlock_seqTransform (kind : SeqKind) (axis : Axis) (n : BitVec 3) {s s' : State}
    (h : SameBlock s.blk s'.blk) :
    SameBlock (seqTransform kind axis n s).blk (seqTransform kind axis n s').blk := by
  rw [seqTransform_blk, seqTransform_blk]
  exact blkRel_transformLine (sameOrNaN_seqLine1d_nanDraw kind _ _) axis n h

theorem sameBlock_runSequencer (kind : SeqKind) {s s' : State} (h : SameBlock s.blk s'.blk) :
    SameBlock (runSequencer kind s).blk (runSequencer kind s').blk := by
  rw [runSequencer_blk, runSequencer_blk]
  exact blkRel_transformBlk (fun _ => sameOrNaN_seqLine1d_nanDraw kind _ _) kind h

/-- Settles O28: each line transform keeps equality up to NaN bits, so one line, and the two passes, do. -/
theorem transformsDependOnTheBlockAlone : Obligations.TransformsDependOnTheBlockAlone := by
  intro i s s' hi h
  cases i with
  | fdct1 axis n => exact ⟨_, _, exec_fdct1 .., exec_fdct1 .., sameBlock_seqTransform .fwd2 axis n h⟩
  | idct1 axis n => exact ⟨_, _, exec_idct1 .., exec_idct1 .., sameBlock_seqTransform .inv2 axis n h⟩
  | fdct2 => exact ⟨_, _, exec_fdct2 s, exec_fdct2 s', sameBlock_runSequencer .fwd2 h⟩
  | idct2 => exact ⟨_, _, exec_idct2 s, exec_idct2 s', sameBlock_runSequencer .inv2 h⟩
  | wrb _ | rdb _ | rdc _ | rdst | nop => simp [isTransform] at hi

end Sys2Proof.Machine

/-! ## The port: acceptance, the busy period, whole commands and several cores (spec/20_memory.md)

The step is said once per kind of edge (`step_accept`, `step_busy`, `step_completes`), the answer of a command once
(`accept_answers`), and the script of one command edge group by edge group (`run_pause`, `run_hold`). -/

namespace Sys2Proof.Machine

open Claims

/-! ### The step of an idle and of a busy core -/

theorem step_accept {s : State} (hp : s.port = .idle) (hr : s.nextInput.rst = false)
    (hv : s.nextInput.cmdValid = true) :
    step s = accept { word := s.nextInput.cmdWord, data := s.nextInput.cmdData } s.dropInput :=
  clockEdge_accept (s := s.dropInput) hr hp hv

theorem step_idle {s : State} (hp : s.port = .idle) (hr : s.nextInput.rst = false)
    (hv : s.nextInput.cmdValid = false) : step s = .next s.dropInput :=
  clockEdge_idle (s := s.dropInput) hr hp hv

theorem step_busy {s : State} {w : Nat} {r : Response} (hp : s.port = .busy w r)
    (hr : s.nextInput.rst = false) :
    step s = .next (busyEdge s.nextInput.rspReady w r s.dropInput) :=
  clockEdge_busy (s := s.dropInput) hr hp

/-- Every kind of edge gives a next state (60_exceptions.md R254). -/
theorem step_completes (s : State) : ∃ t, step s = .next t := by
  cases hr : s.nextInput.rst with
  | true => exact ⟨_, clockEdge_reset _ hr⟩
  | false =>
    cases hp : s.port with
    | busy w r => exact ⟨_, step_busy hp hr⟩
    | idle =>
      cases hv : s.nextInput.cmdValid with
      | true => rw [step_accept hp hr hv]; exact accept_completes _ _
      | false => exact ⟨_, step_idle hp hr hv⟩

/-- A command presented to a core made idle is accepted by the next step. -/
theorem step_presentTo (c : Cmd) (s : State) :
    step (presentTo c s) = accept c { s with port := .idle } :=
  step_accept rfl rfl rfl

theorem decode_of_decodeTableWord {nbits w : Nat} {i : Instr} (h : decodeTableWord nbits w = some i) :
    decode (BitVec.ofNat 32 w) = .ok i := by
  unfold decodeTableWord at h
  split_ifs at h
  split at h
  · next j hj =>
    injection h with h
    rw [hj, h]
  · cases h

/-- Settles O46: the edge accepts the presented command, and acceptance of a legal word is `exec` with the pair in the
latch. -/
theorem stepRunsThePresentedCommand : Obligations.StepRunsThePresentedCommand := by
  refine ⟨fun s i hp hr hv hd => ?_, fun s nbits w i hd => ?_⟩
  · exact (step_accept hp hr hv).trans (accept_ok (c := ⟨_, _⟩) _ hd)
  · have hd' := decode_of_decodeTableWord hd
    exact (step_presentTo _ s).trans (accept_ok (c := ⟨_, _⟩) _ hd')

/-! ### The response on the port -/

theorem presented_busy_zero {s : State} {r : Response} (h : s.port = .busy 0 r) : s.presented = some r := by
  simp [State.presented, h]

theorem presented_busy_succ {s : State} {w : Nat} {r : Response} (h : s.port = .busy (w + 1) r) :
    s.presented = none := by
  simp [State.presented, h]

theorem cmdReady_busy {s : State} {w : Nat} {r : Response} (h : s.port = .busy w r) : s.cmdReady = false := by
  simp [State.cmdReady, h]

/-! ### The edge of a busy core -/

theorem busyEdge_succ (b : Bool) (w : Nat) (r : Response) (s : State) :
    busyEdge b (w + 1) r s = { s with port := .busy w r } := rfl

theorem busyEdge_zero_ready (r : Response) (s : State) : busyEdge true 0 r s = takeResponse r s := rfl

/-- While the host is not ready an edge only counts, and holds the response once none is left (R57). -/
theorem busyEdge_notReady {w : Nat} {r : Response} {s : State} (hp : s.port = .busy w r) :
    busyEdge false w r s = { s with port := .busy (w - 1) r } := by
  cases w with
  | zero => rw [Nat.zero_sub, ← hp]; rfl
  | succ w => rfl

@[simp] theorem busyEdge_tmp (b : Bool) (w : Nat) (r : Response) (s : State) :
    (busyEdge b w r s).tmp = s.tmp := by
  cases w <;> cases b <;> rfl
@[simp] theorem busyEdge_draws (b : Bool) (w : Nat) (r : Response) (s : State) :
    (busyEdge b w r s).draws = s.draws := by
  cases w <;> cases b <;> rfl
@[simp] theorem busyEdge_cmd (b : Bool) (w : Nat) (r : Response) (s : State) :
    (busyEdge b w r s).cmd = s.cmd := by
  cases w <;> cases b <;> rfl
@[simp] theorem busyEdge_inputs (b : Bool) (w : Nat) (r : Response) (s : State) :
    (busyEdge b w r s).inputs = s.inputs := by
  cases w <;> cases b <;> rfl

/-- Settles O49: the edge is `busyEdge`, which keeps all but the port and the record; those follow the count. -/
theorem busyCoreOnlyAnswers : Obligations.BusyCoreOnlyAnswers := by
  refine ⟨rfl, rfl, fun s wait r hp hr => ?_⟩
  have hstep := step_busy hp hr
  have hdatapath : DatapathKept s (busyEdge s.nextInput.rspReady wait r s.dropInput) := by
    simp [DatapathKept]
  cases wait with
  | succ w =>
    have hnone := presented_busy_succ hp
    refine ⟨cmdReady_busy hp, ?_, by omega, _, hstep, hdatapath, ?_⟩
    · simp [State.rspCode, State.rspData, hnone]
    · simp [State.rspValid, hnone, busyEdge_succ]
  | zero =>
    have hsome := presented_busy_zero hp
    refine ⟨cmdReady_busy hp, by omega, ?_, _, hstep, hdatapath, ?_⟩
    · simp [State.rspCode, State.rspData, hsome]
    · cases hready : s.nextInput.rspReady with
      | false => simp [State.rspValid, hsome, busyEdge_notReady (s := s.dropInput) hp]
      | true => simp [State.rspValid, hsome, busyEdge_zero_ready]

/-! ### The answer of a command -/

/-- A command the decoder gave answers OK after the latency of its word (R55, 70_reset_and_hazards.md R277). -/
theorem exec_answers {i : Instr} {w : Word} {s t : State} (hd : decode w = .ok i) (h : exec i s = .next t) :
    ∃ data, Answers t (latencyOf s.lat w) .ok data := by
  unfold latencyOf
  rw [hd]
  cases i with
  | rdc k =>
    have hle : k.toNat ≤ 12 := by simpa [Instr.wf] using wf_of_decode hd
    cases hk : romSlot k with
    | some v => rw [exec_rdc_some s hk] at h; obtain rfl := next_inj h; exact ⟨_, rfl⟩
    | none => exact absurd ((romSlot_eq_none_iff k).mp hk) (by omega)
  | _ => obtain rfl := next_inj h; exact ⟨_, rfl⟩

/-- Every command, legal or not, is answered after the latency of its word, OK or ILLEGAL as the word is, an ILLEGAL
answer with data 0 (R55, R56). -/
theorem accept_answers (c : Cmd) (s : State) :
    ∃ t r, accept c s = .next t ∧ t.port = .busy (latencyOf s.lat c.word - 1) r ∧
      r.code = (if isLegal c.word then .ok else .illegal) ∧ (r.code = .illegal → r.data = 0) := by
  cases hd : decode c.word with
  | ok i =>
    obtain ⟨t, ht⟩ := exec_completes i { s with cmd := c }
    obtain ⟨data, hport⟩ := exec_answers hd ht
    exact ⟨t, _, (accept_ok s hd).trans ht, hport, by simp [isLegal_of_decode_ok hd]⟩
  | error e =>
    have hlat : latencyOf s.lat c.word = s.lat.illegal := by simp [latencyOf, hd]
    refine ⟨_, { code := .illegal, data := 0 }, accept_illegal s hd, ?_, ?_, fun _ => rfl⟩
    · rw [hlat, raiseIllegalCommand_port]
    · simp [isLegal_of_decode_error hd]

/-- Settles O54: the answer of acceptance names the word and the latencies alone as its count. -/
theorem latencyDependsOnTheWordAlone : Obligations.LatencyDependsOnTheWordAlone := by
  intro c s
  obtain ⟨t, r, ht, hport, _⟩ := accept_answers c s
  exact ⟨t, r.code, r.data, ht, hport⟩

/-- One whole command: its response is taken, with the code of its word, and the core is idle again (R53, R56). -/
theorem transaction_answers (c : Cmd) (s : State) :
    ∃ t r, transaction c s = .next t ∧ t.taken = s.taken ++ [r] ∧
      r.code = (if isLegal c.word then .ok else .illegal) ∧ (r.code = .illegal → r.data = 0) ∧
      t.port = .idle ∧ t.inputs = s.inputs ∧ t.lat = s.lat := by
  obtain ⟨u, r, hu, hport, hcode, hdata⟩ := accept_answers c s
  obtain ⟨_, htaken, hinputs, hlat, _⟩ := accept_spec hu
  refine ⟨takeResponse r u, r, ?_, ?_, hcode, hdata, rfl, hinputs, hlat⟩
  · rw [transaction_of_accept hu, finishResponse_busy hport]
  · rw [takeResponse_taken, htaken]

/-- Settles O56, by induction on the list of commands: each is one transaction with one answer. -/
theorem programsAnswerEveryCommand : Obligations.ProgramsAnswerEveryCommand := by
  intro cs
  induction cs with
  | nil => exact fun s hp => ⟨s, [], by simp [runProgram_nil, hp]⟩
  | cons c cs ih =>
    intro s _
    obtain ⟨u, r, hu, htaken, hcode, hdata, hport, hinputs, hlat⟩ := transaction_answers c s
    obtain ⟨t, rs, ht, htaken', hlength, hcodes, hdatas, hport', hinputs', hlat'⟩ := ih u hport
    refine ⟨t, r :: rs, (runProgram_cons cs hu).trans ht, ?_, ?_, ?_, ?_, hport', hinputs'.trans hinputs,
      hlat'.trans hlat⟩
    · simp [htaken', htaken]
    · simp [hlength]
    · simp [hcode, hcodes]
    · simpa using ⟨hdata, hdatas⟩

/-! ### Clock edge by clock edge -/

/-- The sequencer neither reads nor writes the host's coming signals. -/
theorem runSequencer_inputs (kind : SeqKind) (es : List EdgeIn) (s : State) :
    runSequencer kind { s with inputs := es } = { runSequencer kind s with inputs := es } := by
  obtain ⟨hstatus, hcmd, hport, htaken, _, hlat⟩ := runSequencer_datapathOnly kind s
  have h : runSequencer kind { s with inputs := es } = _ :=
    runSequencer_reshell kind { s with inputs := es } s
  rw [h, reshell, ← hstatus, ← hcmd, ← hport, ← htaken, ← hlat]

/-- A command does not read the host's coming signals, and leaves them as they are. -/
theorem exec_inputs {i : Instr} {s t : State} (es : List EdgeIn) (h : exec i s = .next t) :
    exec i { s with inputs := es } = .next { t with inputs := es } := by
  cases i with
  | rdc k =>
    cases hk : romSlot k with
    | some w =>
      rw [exec_rdc_some s hk] at h; obtain rfl := next_inj h
      rw [exec_rdc_some _ hk]; rfl
    | none =>
      rw [exec_rdc_none s hk] at h; obtain rfl := next_inj h
      rw [exec_rdc_none _ hk]; rfl
  | fdct2 => obtain rfl := next_inj h; rw [exec_fdct2, runSequencer_inputs]; rfl
  | idct2 => obtain rfl := next_inj h; rw [exec_idct2, runSequencer_inputs]; rfl
  | _ => obtain rfl := next_inj h; rfl

theorem accept_inputs {c : Cmd} {s t : State} (es : List EdgeIn) (h : accept c s = .next t) :
    accept c { s with inputs := es } = .next { t with inputs := es } := by
  cases hd : decode c.word with
  | ok i => rw [accept_ok s hd] at h; rw [accept_ok _ hd]; exact exec_inputs es h
  | error e =>
    rw [accept_illegal s hd] at h; obtain rfl := next_inj h
    rw [accept_illegal _ hd]; rfl

theorem run_step {s t : State} (k : Nat) (h : step s = .next t) :
    Host.Core.run core (k + 1) s = Host.Core.run core k t := by
  have hcore : core.step s = .next t := h
  simp only [Host.Core.run, hcore]

/-- `s` with the port in state `p` and the host's signals `es` to come. -/
def State.onPort (s : State) (p : Port) (es : List EdgeIn) : State := { s with port := p, inputs := es }

theorem step_present (c : Cmd) (s : State) (es : List EdgeIn) :
    step (s.onPort .idle (presentEdge c :: es)) = accept c (s.onPort .idle es) :=
  step_accept rfl rfl rfl

theorem step_quiet (s : State) (w : Nat) (r : Response) (es : List EdgeIn) :
    step (s.onPort (.busy w r) (quietEdge :: es)) = .next (s.onPort (.busy (w - 1) r) es) :=
  (step_busy rfl rfl).trans (congrArg _ (busyEdge_notReady (s := s.onPort (.busy w r) es) rfl))

theorem step_take_waiting (s : State) (w : Nat) (r : Response) (es : List EdgeIn) :
    step (s.onPort (.busy (w + 1) r) (takeEdge :: es)) = .next (s.onPort (.busy w r) es) :=
  step_busy (w := w + 1) (r := r) rfl rfl

theorem step_take_presented (s : State) (r : Response) (es : List EdgeIn) :
    step (s.onPort (.busy 0 r) (takeEdge :: es)) = .next ((takeResponse r s).onPort .idle es) :=
  step_busy (w := 0) (r := r) rfl rfl

theorem step_take_idle (s : State) (es : List EdgeIn) :
    step (s.onPort .idle (takeEdge :: es)) = .next (s.onPort .idle es) :=
  step_idle rfl rfl rfl

/-- Edges at which the host drives nothing only count down to the response (R57). -/
theorem run_pause (n k w : Nat) (r : Response) (rest : List EdgeIn) (s : State) :
    Host.Core.run core (k + n) (s.onPort (.busy w r) (List.replicate n quietEdge ++ rest)) =
      Host.Core.run core k (s.onPort (.busy (w - n) r) rest) := by
  induction n generalizing w with
  | zero => rfl
  | succ n ih =>
    have hcount : w - (n + 1) = w - 1 - n := by omega
    rw [hcount]
    exact (run_step (k + n) (step_quiet s w r _)).trans (ih (w - 1))

/-- Edges that only offer to take a response do nothing to an idle core. -/
theorem run_hold_idle (n : Nat) (rest : List EdgeIn) (s : State) :
    Host.Core.run core n (s.onPort .idle (List.replicate n takeEdge ++ rest)) = .next (s.onPort .idle rest) := by
  induction n with
  | zero => rfl
  | succ n ih => exact (run_step n (step_take_idle s _)).trans ih

/-- Enough edges that offer to take the response take it, and take it once (R56). -/
theorem run_hold (n w : Nat) (r : Response) (rest : List EdgeIn) (s : State) (hw : w < n) :
    Host.Core.run core n (s.onPort (.busy w r) (List.replicate n takeEdge ++ rest)) =
      .next ((takeResponse r s).onPort .idle rest) := by
  induction n generalizing w with
  | zero => omega
  | succ n ih =>
    cases w with
    | zero => exact (run_step n (step_take_presented s r _)).trans (run_hold_idle n rest _)
    | succ w => exact (run_step n (step_take_waiting s w r _)).trans (ih w (by omega))

/-- Acceptance of a command by an idle core, whatever the host's signals after it. -/
theorem accept_onPort {c : Cmd} {s t : State} {w : Nat} {r : Response} (es : List EdgeIn) (hp : s.port = .idle)
    (h : accept c s = .next t) (ht : t.port = .busy w r) :
    accept c (s.onPort .idle es) = .next (t.onPort (.busy w r) es) := by
  rw [State.onPort, State.onPort, ← hp, ← ht]
  exact accept_inputs es h

/-- Settles O55: the first edge accepts, the pause counts down, and the hold takes the response and then does nothing;
the transaction accepts and takes the same response. -/
theorem clockedCommandIsOneTransaction : Obligations.ClockedCommandIsOneTransaction := by
  intro c pause hold rest s hp hin hhold hlat
  obtain ⟨t, r, ht, hport, _⟩ := accept_answers c s
  have hs : s = s.onPort .idle (presentEdge c ::
      (List.replicate pause quietEdge ++ (List.replicate hold takeEdge ++ rest))) := by
    rw [State.onPort, ← hp, ← List.append_assoc]
    exact congrArg (fun es => { s with inputs := es }) hin
  have hidle : { s with inputs := rest } = s.onPort .idle rest := by rw [State.onPort, ← hp]
  have hedges : 1 + pause + hold = hold + pause + 1 := by omega
  rw [hidle, transaction_of_accept (accept_onPort rest hp ht hport), hs, hedges]
  exact (run_step _ ((step_present c s _).trans (accept_onPort _ hp ht hport))).trans <|
    (run_pause pause hold _ r _ t).trans <| run_hold hold _ r rest t (by omega)

/-! ### Several cores -/

theorem systemStep_none {i : Nat} {y : System} (h : y[i]? = none) : systemStep i y = .next y := by
  simp [systemStep, h]

theorem systemStep_some {i : Nat} {y : System} {s t : State} (h : y[i]? = some s) (ht : step s = .next t) :
    systemStep i y = .next (y.set i t) := by
  simp [systemStep, h, ht]

/-- Settles O59: the system step is one core's step written back at its own index. -/
theorem coresDoNotInteract : Obligations.CoresDoNotInteract := by
  intro i y
  cases hi : y[i]? with
  | none => exact ⟨y, systemStep_none hi, rfl, by simp, fun _ _ => rfl⟩
  | some s =>
    obtain ⟨t, ht⟩ := step_completes s
    have hlt : i < y.length := (List.getElem?_eq_some_iff.mp hi).1
    refine ⟨y.set i t, systemStep_some hi ht, List.length_set, fun s' hs' => ⟨t, ?_, ?_⟩, fun j hj => ?_⟩
    · obtain rfl := Option.some.inj hs'
      exact ht
    · exact List.getElem?_set_self hlt
    · exact List.getElem?_set_ne hj.symm

end Sys2Proof.Machine

/-! ## Encoding: the decoder, the encoder and the opcode map (spec/30_encoding.md)

Each field of a word is said once as a number (`toNat_opField` and so on), each encoding once as a number
(`toNat_encode_wrb` and so on), and what the decoder reads once as a condition on the fields (`decode_eq_ok_iff`); that
decoder and encoder meet is then arithmetic (`fieldsMatch_iff`). -/

namespace Sys2Proof

open Machine

/-! ### The fields of a word as numbers (R81, R82) -/

theorem toNat_opField (w : Word) : (opField w).toNat = w.toNat / 2 ^ 28 := by
  have hw := w.isLt
  rw [opField, BitVec.extractLsb'_toNat, Nat.shiftRight_eq_div_pow]
  omega

theorem toNat_idxField (w : Word) : (idxField w).toNat = w.toNat % 64 := by
  simp [idxField]

theorem toNat_kField (w : Word) : (kField w).toNat = w.toNat % 16 := by
  simp [kField]

theorem toNat_nField (w : Word) : (nField w).toNat = w.toNat % 8 := by
  simp [nField]

theorem toNat_code_axisField (w : Word) : (axisField w).code.toNat = w.toNat / 8 % 2 := by
  have hcode (b : Bool) : (Axis.ofBit b).code.toNat = b.toNat := by cases b <;> rfl
  rw [axisField, hcode, BitVec.getLsbD, Nat.toNat_testBit]

theorem axis_eq_iff (a b : Axis) : a = b ↔ a.code.toNat = b.code.toNat := by
  cases a <;> cases b <;> decide

theorem extractLsb'_eq_zero_iff (w : Word) (start len : Nat) :
    w.extractLsb' start len = 0 ↔ w.toNat / 2 ^ start % 2 ^ len = 0 := by
  rw [← BitVec.toNat_inj, BitVec.extractLsb'_toNat, Nat.shiftRight_eq_div_pow, BitVec.ofNat_eq_ofNat,
    BitVec.toNat_ofNat, Nat.zero_mod]

theorem zeroX_iff (w : Word) : zeroX w = true ↔ w.toNat % 2 ^ 28 < 64 := by
  rw [zeroX, beq_iff_eq, extractLsb'_eq_zero_iff]
  omega

theorem zeroKL_iff (w : Word) : zeroKL w = true ↔ w.toNat % 2 ^ 28 < 16 := by
  rw [zeroKL, beq_iff_eq, extractLsb'_eq_zero_iff]
  omega

theorem zeroZ_iff (w : Word) : zeroZ w = true ↔ w.toNat % 2 ^ 28 = 0 := by
  rw [zeroZ, beq_iff_eq, extractLsb'_eq_zero_iff]
  omega

/-! ### The encodings as numbers (R88) -/

theorem toNat_append_add {m n : Nat} (x : BitVec m) (y : BitVec n) :
    (x ++ y).toNat = 2 ^ n * x.toNat + y.toNat := by
  rw [BitVec.toNat_append, Nat.shiftLeft_eq, Nat.mul_comm, Nat.two_pow_add_eq_or_of_lt y.isLt]

@[simp] theorem toNat_encode_wrb (idx : BitVec 6) : (encode (.wrb idx)).toNat = 0x10000000 + idx.toNat :=
  toNat_append_add (0x1#4 ++ 0#22) idx

@[simp] theorem toNat_encode_rdb (idx : BitVec 6) : (encode (.rdb idx)).toNat = 0x20000000 + idx.toNat :=
  toNat_append_add (0x2#4 ++ 0#22) idx

@[simp] theorem toNat_encode_rdc (k : BitVec 4) : (encode (.rdc k)).toNat = 0x30000000 + k.toNat :=
  toNat_append_add (0x3#4 ++ 0#24) k

@[simp] theorem toNat_encode_fdct1 (axis : Axis) (n : BitVec 3) :
    (encode (.fdct1 axis n)).toNat = 0x40000000 + 8 * axis.code.toNat + n.toNat := by
  cases axis with
  | rLine => exact toNat_append_add (0x4#4 ++ 0#24 ++ 0#1) n
  | cLine => exact toNat_append_add (0x4#4 ++ 0#24 ++ 1#1) n

@[simp] theorem toNat_encode_idct1 (axis : Axis) (n : BitVec 3) :
    (encode (.idct1 axis n)).toNat = 0x50000000 + 8 * axis.code.toNat + n.toNat := by
  cases axis with
  | rLine => exact toNat_append_add (0x5#4 ++ 0#24 ++ 0#1) n
  | cLine => exact toNat_append_add (0x5#4 ++ 0#24 ++ 1#1) n

@[simp] theorem toNat_encode_fdct2 : (encode .fdct2).toNat = 0x60000000 := rfl
@[simp] theorem toNat_encode_idct2 : (encode .idct2).toNat = 0x70000000 := rfl
@[simp] theorem toNat_encode_rdst : (encode .rdst).toNat = 0x80000000 := rfl
@[simp] theorem toNat_encode_nop : (encode .nop).toNat = 0x90000000 := rfl

/-- Settles O3: the numbers of the encodings with operands, at each axis, and the four words without operands. -/
theorem encodingsAsNumbers : Obligations.EncodingsAsNumbers :=
  ⟨fun idx => ⟨toNat_encode_wrb idx, toNat_encode_rdb idx⟩, toNat_encode_rdc,
    fun n => ⟨toNat_encode_fdct1 .rLine n, toNat_encode_fdct1 .cLine n, toNat_encode_idct1 .rLine n,
      toNat_encode_idct1 .cLine n⟩,
    toNat_encode_fdct2, toNat_encode_idct2, toNat_encode_rdst, toNat_encode_nop⟩

/-- Settles O1: each of the fifteen words by running the decoder on it. -/
theorem writtenWordsDecode : Obligations.WrittenWordsDecode := by
  unfold Obligations.WrittenWordsDecode
  decide

/-! ### What the decoder reads (R84) -/

/-- What the fields of a word say when it is the command `i`: its opcode, its must-be-zero bits and each operand. -/
def FieldsMatch (w : Word) : Instr → Prop
  | .wrb idx => opField w = 0x1 ∧ zeroX w = true ∧ idxField w = idx
  | .rdb idx => opField w = 0x2 ∧ zeroX w = true ∧ idxField w = idx
  | .rdc k => opField w = 0x3 ∧ zeroKL w = true ∧ (kField w).toNat ≤ 12 ∧ kField w = k
  | .fdct1 axis n => opField w = 0x4 ∧ zeroKL w = true ∧ axisField w = axis ∧ nField w = n
  | .idct1 axis n => opField w = 0x5 ∧ zeroKL w = true ∧ axisField w = axis ∧ nField w = n
  | .fdct2 => opField w = 0x6 ∧ zeroZ w = true
  | .idct2 => opField w = 0x7 ∧ zeroZ w = true
  | .rdst => opField w = 0x8 ∧ zeroZ w = true
  | .nop => opField w = 0x9 ∧ zeroZ w = true

theorem whenZero_eq_ok_iff {zero : Bool} {i j : Instr} : whenZero zero i = .ok j ↔ zero = true ∧ i = j := by
  cases zero <;> simp [whenZero]

theorem decodeRdc_eq_ok_iff {w : Word} {i : Instr} :
    decodeRdc w = .ok i ↔ zeroKL w = true ∧ (kField w).toNat ≤ 12 ∧ .rdc (kField w) = i := by
  unfold decodeRdc
  split_ifs <;> simp_all

theorem decode_of_fieldsMatch {w : Word} {i : Instr} (h : FieldsMatch w i) : decode w = .ok i := by
  cases i with
  | wrb idx | rdb idx =>
    obtain ⟨hop, hzero, rfl⟩ := h
    simp [decode, whenZero, hop, hzero]
  | rdc k =>
    obtain ⟨hop, hzero, hle, rfl⟩ := h
    simp [decode, decodeRdc, hop, hzero, hle]
  | fdct1 axis n | idct1 axis n =>
    obtain ⟨hop, hzero, rfl, rfl⟩ := h
    simp [decode, whenZero, hop, hzero]
  | fdct2 | idct2 | rdst | nop =>
    obtain ⟨hop, hzero⟩ := h
    simp [decode, whenZero, hop, hzero]

theorem fieldsMatch_of_decode {w : Word} {i : Instr} (h : decode w = .ok i) : FieldsMatch w i := by
  unfold decode at h
  split_ifs at h with hop hop hop hop hop hop hop hop hop
  any_goals
    obtain ⟨hzero, rfl⟩ := whenZero_eq_ok_iff.mp h
    simp only [FieldsMatch, hop, hzero, and_self]
  obtain ⟨hzero, hle, rfl⟩ := decodeRdc_eq_ok_iff.mp h
  exact ⟨hop, hzero, hle, rfl⟩

theorem decode_eq_ok_iff (w : Word) (i : Instr) : decode w = .ok i ↔ FieldsMatch w i :=
  ⟨fieldsMatch_of_decode, decode_of_fieldsMatch⟩

/-- Format by format, the condition on the fields and the equation with the encoding are the same equations between
numbers. -/
theorem fieldsMatch_iff (w : Word) (i : Instr) : FieldsMatch w i ↔ i.wf = true ∧ encode i = w := by
  rw [← BitVec.toNat_inj]
  cases i with
  | wrb idx | rdb idx =>
    simp only [FieldsMatch, Instr.wf, true_and, zeroX_iff, ← BitVec.toNat_inj, toNat_opField, BitVec.ofNat_eq_ofNat,
      BitVec.toNat_ofNat, toNat_idxField, toNat_encode_wrb, toNat_encode_rdb]
    omega
  | rdc k =>
    simp only [FieldsMatch, Instr.wf, decide_eq_true_eq, zeroKL_iff, ← BitVec.toNat_inj, toNat_opField,
      BitVec.ofNat_eq_ofNat, BitVec.toNat_ofNat, toNat_kField, toNat_encode_rdc]
    omega
  | fdct1 axis n | idct1 axis n =>
    simp only [FieldsMatch, Instr.wf, true_and, zeroKL_iff, axis_eq_iff, toNat_code_axisField, ← BitVec.toNat_inj,
      toNat_opField, BitVec.ofNat_eq_ofNat, BitVec.toNat_ofNat, toNat_nField, toNat_encode_fdct1, toNat_encode_idct1]
    omega
  | fdct2 | idct2 | rdst | nop =>
    simp only [FieldsMatch, Instr.wf, true_and, zeroZ_iff, ← BitVec.toNat_inj, toNat_opField, BitVec.ofNat_eq_ofNat,
      BitVec.toNat_ofNat, toNat_encode_fdct2, toNat_encode_idct2, toNat_encode_rdst, toNat_encode_nop]
    omega

/-- Settles O2: the decoder reads the fields, and the fields say a command exactly when the word is its encoding. -/
theorem decodeInvertsEncode : Obligations.DecodeInvertsEncode := fun w i =>
  (decode_eq_ok_iff w i).trans (fieldsMatch_iff w i)

theorem decode_encode {i : Instr} (hi : i.wf = true) : decode (encode i) = .ok i :=
  (decodeInvertsEncode (encode i) i).mpr ⟨hi, rfl⟩

/-! ### Legal and illegal words (R85) -/

theorem isLegal_iff_exists (w : Word) : isLegal w = true ↔ ∃ i, decode w = .ok i := by
  cases hd : decode w with
  | ok i => simp [isLegal_of_decode_ok hd]
  | error e => simp [isLegal_of_decode_error hd]

/-- The legal words in terms of opcode and the other bits, one line for each format X, K, L and Z (R81, R83). -/
theorem isLegal_iff_number (w : Word) :
    isLegal w = true ↔
      ((w.toNat / 2 ^ 28 = 1 ∨ w.toNat / 2 ^ 28 = 2) ∧ w.toNat % 2 ^ 28 < 64) ∨
      (w.toNat / 2 ^ 28 = 3 ∧ w.toNat % 2 ^ 28 ≤ 12) ∨
      ((w.toNat / 2 ^ 28 = 4 ∨ w.toNat / 2 ^ 28 = 5) ∧ w.toNat % 2 ^ 28 < 16) ∨
      ((6 ≤ w.toNat / 2 ^ 28 ∧ w.toNat / 2 ^ 28 ≤ 9) ∧ w.toNat % 2 ^ 28 = 0) := by
  rw [isLegal_iff_exists, decode]
  simp only [← BitVec.toNat_inj, toNat_opField, BitVec.ofNat_eq_ofNat, BitVec.toNat_ofNat]
  split_ifs
  all_goals
    simp only [whenZero_eq_ok_iff, decodeRdc_eq_ok_iff, exists_and_left, exists_eq', and_true, exists_false, false_iff,
      zeroX_iff, zeroKL_iff, zeroZ_iff, toNat_kField]
    omega

/-- Settles O5: the complement of the legal words, opcode by opcode. -/
theorem illegalWordsExactly : Obligations.IllegalWordsExactly := by
  intro w
  rw [← Bool.not_eq_true, isLegal_iff_number]
  omega

/-! ### The opcode map (R83) -/

theorem selects_iff (r : OpcodeRow) (w : Word) :
    r.selects w = true ↔ w &&& r.mask = r.value ∧ (r.kAtMost12 = true → (kField w).toNat ≤ 12) := by
  have hk : (w &&& 0xF#32).toNat = (kField w).toNat := by
    rw [toNat_kField]
    exact Nat.and_two_pow_sub_one_eq_mod w.toNat 4
  rw [OpcodeRow.selects, hk]
  cases r.kAtMost12 <;> simp

/-- A field that lies under a row's mask reads the row's value in a word the row selects. -/
theorem field_of_selects {r : OpcodeRow} {w : Word} {start len : Nat} (h : r.selects w = true)
    (hmask : r.mask.extractLsb' start len = BitVec.allOnes len) :
    w.extractLsb' start len = r.value.extractLsb' start len := by
  obtain ⟨hvalue, _⟩ := (selects_iff r w).mp h
  rw [← hvalue, BitVec.extractLsb'_and, hmask, BitVec.and_allOnes]

theorem opField_of_selects {r : OpcodeRow} {w : Word} (h : r.selects w = true) (hmask : opField r.mask = 0xF) :
    opField w = opField r.value :=
  field_of_selects h hmask

/-- The must-be-zero bits of a format, where a row's mask covers them and its value has zeros there. -/
theorem zeroBits_of_selects {r : OpcodeRow} {w : Word} {start len : Nat} (h : r.selects w = true)
    (hmask : r.mask.extractLsb' start len = BitVec.allOnes len ∧ r.value.extractLsb' start len = 0) :
    (w.extractLsb' start len == 0) = true := by
  obtain ⟨hones, hzero⟩ := hmask
  rw [field_of_selects h hones, hzero, beq_self_eq_true]

/-- Row by row: the mask fixes the opcode and the must-be-zero bits and leaves the operands. -/
theorem fieldsMatch_of_selects {r : OpcodeRow} {w : Word} (hr : r ∈ opcodeMap) (h : r.selects w = true) :
    ∃ i, FieldsMatch w i ∧ i.mnemonic = r.mnemonic := by
  obtain ⟨_, hk⟩ := (selects_iff r w).mp h
  simp only [opcodeMap, List.mem_cons, List.not_mem_nil, or_false] at hr
  rcases hr with rfl | rfl | rfl | rfl | rfl | rfl | rfl | rfl | rfl
  · exact ⟨.wrb (idxField w), ⟨opField_of_selects h rfl, zeroBits_of_selects h (by decide), rfl⟩, rfl⟩
  · exact ⟨.rdb (idxField w), ⟨opField_of_selects h rfl, zeroBits_of_selects h (by decide), rfl⟩, rfl⟩
  · exact ⟨.rdc (kField w), ⟨opField_of_selects h rfl, zeroBits_of_selects h (by decide), hk rfl, rfl⟩, rfl⟩
  · exact ⟨.fdct1 (axisField w) (nField w),
      ⟨opField_of_selects h rfl, zeroBits_of_selects h (by decide), rfl, rfl⟩, rfl⟩
  · exact ⟨.idct1 (axisField w) (nField w),
      ⟨opField_of_selects h rfl, zeroBits_of_selects h (by decide), rfl, rfl⟩, rfl⟩
  · exact ⟨.fdct2, ⟨opField_of_selects h rfl, zeroBits_of_selects h (by decide)⟩, rfl⟩
  · exact ⟨.idct2, ⟨opField_of_selects h rfl, zeroBits_of_selects h (by decide)⟩, rfl⟩
  · exact ⟨.rdst, ⟨opField_of_selects h rfl, zeroBits_of_selects h (by decide)⟩, rfl⟩
  · exact ⟨.nop, ⟨opField_of_selects h rfl, zeroBits_of_selects h (by decide)⟩, rfl⟩

/-- All bit vectors of a width, in ascending order. -/
def allBitVecs (n : Nat) : List (BitVec n) := (List.range (2 ^ n)).map (BitVec.ofNat n)

theorem mem_allBitVecs {n : Nat} (x : BitVec n) : x ∈ allBitVecs n :=
  List.mem_map.mpr ⟨x.toNat, List.mem_range.mpr x.isLt, by simp⟩

/-- Every well-formed command, in the order of the opcode map: 64 + 64 + 13 + 16 + 16 + 4 of them (R86). -/
def legalCommands : List Instr :=
  [(allBitVecs 6).map Instr.wrb, (allBitVecs 6).map Instr.rdb,
    ((allBitVecs 4).filter fun k => k.toNat ≤ 12).map Instr.rdc,
    (allBitVecs 3).map (Instr.fdct1 .rLine), (allBitVecs 3).map (Instr.fdct1 .cLine),
    (allBitVecs 3).map (Instr.idct1 .rLine), (allBitVecs 3).map (Instr.idct1 .cLine),
    [.fdct2, .idct2, .rdst, .nop]].flatten

theorem mem_legalCommands_iff (i : Instr) : i ∈ legalCommands ↔ i.wf = true := by
  cases i with
  | fdct1 axis n | idct1 axis n => cases axis <;> simp [legalCommands, Instr.wf, mem_allBitVecs]
  | _ => simp [legalCommands, Instr.wf, mem_allBitVecs]

/-- The legal words (R86). -/
def legalWords : List Word := legalCommands.map encode

theorem mem_legalWords_iff (w : Word) : w ∈ legalWords ↔ isLegal w = true := by
  simp only [legalWords, isLegal_iff_exists, decodeInvertsEncode w, List.mem_map, mem_legalCommands_iff]

/-- Each legal word is below the next, so each is below all that follow. -/
theorem pairwise_legalWords : legalWords.Pairwise (· < ·) :=
  List.isChain_iff_pairwise.mp (by decide +kernel)

theorem length_legalWords : legalWords.length = 177 := by decide +kernel

/-- The encoding of a command is selected by the row of its mnemonic, whatever the operands. -/
theorem selects_encode {i : Instr} (hi : i.wf = true) {r : OpcodeRow} (hr : r ∈ opcodeMap)
    (hname : i.mnemonic = r.mnemonic) : r.selects (encode i) = true := by
  revert r
  cases i with
  | wrb idx =>
    have hrow : ∀ r ∈ opcodeMap, "WRB" = r.mnemonic → ∀ idx, r.selects (encode (.wrb idx)) = true := by
      decide +kernel
    exact fun r hr hname => hrow r hr hname idx
  | rdb idx =>
    have hrow : ∀ r ∈ opcodeMap, "RDB" = r.mnemonic → ∀ idx, r.selects (encode (.rdb idx)) = true := by
      decide +kernel
    exact fun r hr hname => hrow r hr hname idx
  | rdc k => revert k; decide +kernel
  | fdct1 axis n | idct1 axis n => clear hi; cases axis <;> revert n <;> decide +kernel
  | fdct2 | idct2 | rdst | nop => decide +kernel

theorem selects_iff_decode {r : OpcodeRow} (hr : r ∈ opcodeMap) (w : Word) :
    r.selects w = true ↔ ∃ i, decode w = .ok i ∧ i.mnemonic = r.mnemonic := by
  constructor
  · intro h
    obtain ⟨i, hi, hname⟩ := fieldsMatch_of_selects hr h
    exact ⟨i, decode_of_fieldsMatch hi, hname⟩
  · rintro ⟨i, hd, hname⟩
    obtain ⟨hwf, rfl⟩ := (decodeInvertsEncode w i).mp hd
    exact selects_encode hwf hr hname

/-- Settles O4: the rows one by one, and the encodings of the well-formed commands, in ascending order, as the list of
legal words. -/
theorem opcodeMapSelectsCommands : Obligations.OpcodeMapSelectsCommands := by
  refine ⟨fun w r hr => selects_iff_decode hr w, ⟨legalWords, ?_, length_legalWords, fun w => ?_⟩, rfl, rfl⟩
  · exact pairwise_legalWords.imp BitVec.ne_of_lt
  · exact (mem_legalWords_iff w).symm

end Sys2Proof

/-! ## The data word and the assembler (spec/30_encoding.md R88 to R90) -/

namespace Sys2Proof.Machine

/-! ### The data word (R90) -/

/-- The sequencer neither reads nor writes the command latch. -/
theorem runSequencer_cmd (kind : SeqKind) (c : Cmd) (s : State) :
    runSequencer kind { s with cmd := c } = { runSequencer kind s with cmd := c } := by
  obtain ⟨hstatus, _, hport, htaken, hinputs, hlat⟩ := runSequencer_datapathOnly kind s
  have h : runSequencer kind { s with cmd := c } = _ := runSequencer_reshell kind { s with cmd := c } s
  rw [h, reshell, ← hstatus, ← hport, ← htaken, ← hinputs, ← hlat]

/-- A command other than WRB does not read the latch, and leaves it as it is. -/
theorem exec_cmd {i : Instr} {s t : State} (c : Cmd) (hi : ∀ idx, i ≠ .wrb idx) (h : exec i s = .next t) :
    exec i { s with cmd := c } = .next { t with cmd := c } := by
  cases i with
  | wrb idx => exact absurd rfl (hi idx)
  | rdc k =>
    cases hk : romSlot k with
    | some w =>
      rw [exec_rdc_some s hk] at h; obtain rfl := next_inj h
      rw [exec_rdc_some _ hk]; rfl
    | none =>
      rw [exec_rdc_none s hk] at h; obtain rfl := next_inj h
      rw [exec_rdc_none _ hk]; rfl
  | fdct2 => obtain rfl := next_inj h; rw [exec_fdct2, runSequencer_cmd]; rfl
  | idct2 => obtain rfl := next_inj h; rw [exec_idct2, runSequencer_cmd]; rfl
  | _ => obtain rfl := next_inj h; rfl

/-- With another data word, acceptance of a command that is no WRB leaves another latch and nothing else. -/
theorem accept_data {c : Cmd} {s t : State} (d : Word) (hc : ∀ idx, decode c.word ≠ .ok (.wrb idx))
    (h : accept c s = .next t) :
    accept { c with data := d } s = .next { t with cmd := { c with data := d } } := by
  cases hd : decode c.word with
  | ok i =>
    have hi (idx : BitVec 6) : i ≠ .wrb idx := fun hi => hc idx (hi ▸ hd)
    rw [accept_ok s hd] at h
    rw [accept_ok (c := { c with data := d }) s hd]
    exact (exec_cmd { c with data := d } hi h :)
  | error e =>
    rw [accept_illegal s hd] at h; obtain rfl := next_inj h
    rw [accept_illegal (c := { c with data := d }) s hd]; rfl

/-- Settles O48: a legal word that is no WRB does not read the latch, and an illegal one reads no data either. -/
theorem dataWordIsIgnoredButByWrb : Obligations.DataWordIsIgnoredButByWrb := by
  intro w d d' s hw
  obtain ⟨t, ht⟩ := accept_completes { word := w, data := d } s
  exact ⟨t, _, ht, accept_data (c := { word := w, data := d }) d' hw ht, rfl⟩

/-! ### The assembler (R88, R89) -/

theorem parseBelow_lt {bound n : Nat} {cs : List Char} (h : parseBelow bound cs = some n) : n < bound := by
  simpa using (Option.filter_eq_some_iff.mp h).2

/-- A ROM operand the assembler accepts is a defined slot. -/
theorem parseRom_le {cs : List Char} {k : BitVec 4} (h : parseRom cs = some k) : k.toNat ≤ 12 := by
  have hsmall (n : Nat) (hn : n < 13) : (BitVec.ofNat 4 n).toNat ≤ 12 := by
    rw [BitVec.toNat_ofNat]; omega
  unfold parseRom at h
  split at h
  · next n hn =>
    obtain rfl := Option.some.inj h
    obtain ⟨hlt, _⟩ := List.findIdx?_eq_some_iff_findIdx_eq.mp hn
    exact hsmall n hlt
  · obtain ⟨n, hn, rfl⟩ := Option.map_eq_some_iff.mp h
    exact hsmall n (parseBelow_lt hn)

/-- A legal command word, with a data word that is 0 unless the command is WRB (R88, R90). -/
def AssembledPair (c : Cmd) : Prop :=
  isLegal c.word = true ∧ ((∀ idx, decode c.word ≠ .ok (.wrb idx)) → c.data = 0)

theorem assembledPair_plainCmd {i : Instr} (hi : i.wf = true) : AssembledPair (plainCmd i) :=
  ⟨isLegal_of_decode_ok (decode_encode hi), fun _ => rfl⟩

theorem assembledPair_wrbCmd (idx : BitVec 6) (w : Word) : AssembledPair (wrbCmd idx w) := by
  have hd : decode (wrbCmd idx w).word = .ok (.wrb idx) := decode_encode rfl
  exact ⟨isLegal_of_decode_ok hd, fun hw => absurd hd (hw idx)⟩

theorem assembledPair_expand (p : Pseudo) : ∀ c ∈ p.expand, AssembledPair c := by
  cases p with
  | fwd | inv => exact List.forall_mem_singleton.mpr (assembledPair_plainCmd rfl)
  | fpass axis | ipass axis => exact List.forall_mem_map.mpr fun n _ => assembledPair_plainCmd rfl
  | ldblk ws => exact List.forall_mem_map.mpr fun idx _ => assembledPair_wrbCmd idx _
  | rdblk => exact List.forall_mem_map.mpr fun idx _ => assembledPair_plainCmd rfl

/-- What the assembler can make of a line: a WRB with its word, a well-formed command with the data word 0, a raw word,
or a pseudo-instruction. -/
theorem parseStatement_cases {mnemonic : List Char} {ops : List (List Char)} {l : AsmLine}
    (h : parseStatement mnemonic ops = some l) :
    (∃ idx w, l = .command (.wrb idx) w) ∨ (∃ i, i.wf = true ∧ l = .command i 0) ∨ (∃ w, l = .raw w) ∨
      ∃ p, l = .pseudo p := by
  unfold parseStatement at h
  split at h
  case h_1 =>
    obtain ⟨idx, _, h⟩ := Option.bind_eq_some_iff.mp h
    obtain ⟨w, _, rfl⟩ := Option.map_eq_some_iff.mp h
    exact .inl ⟨idx, w, rfl⟩
  case h_2 =>
    obtain ⟨idx, _, rfl⟩ := Option.map_eq_some_iff.mp h
    exact .inr (.inl ⟨.rdb idx, rfl, rfl⟩)
  case h_3 =>
    obtain ⟨k, hk, rfl⟩ := Option.map_eq_some_iff.mp h
    exact .inr (.inl ⟨.rdc k, decide_eq_true (parseRom_le hk), rfl⟩)
  case h_4 | h_5 =>
    obtain ⟨axis, _, h⟩ := Option.bind_eq_some_iff.mp h
    obtain ⟨n, _, rfl⟩ := Option.map_eq_some_iff.mp h
    exact .inr (.inl ⟨_, rfl, rfl⟩)
  case h_6 | h_7 | h_8 | h_9 =>
    obtain rfl := Option.some.inj h
    exact .inr (.inl ⟨_, rfl, rfl⟩)
  case h_10 =>
    obtain ⟨w, _, rfl⟩ := Option.map_eq_some_iff.mp h
    exact .inr (.inr (.inl ⟨_, rfl⟩))
  case h_11 | h_12 | h_16 =>
    obtain rfl := Option.some.inj h
    exact .inr (.inr (.inr ⟨_, rfl⟩))
  case h_13 | h_14 | h_15 =>
    obtain ⟨_, _, rfl⟩ := Option.map_eq_some_iff.mp h
    exact .inr (.inr (.inr ⟨_, rfl⟩))
  case h_17 => cases h

/-- Settles O58: a command line emits one such pair, and a pseudo-instruction only such pairs. -/
theorem assemblerEmitsLegalCommands : Obligations.AssemblerEmitsLegalCommands := by
  intro mnemonic ops l h hraw
  rcases parseStatement_cases h with ⟨idx, w, rfl⟩ | ⟨i, hi, rfl⟩ | ⟨w, rfl⟩ | ⟨p, rfl⟩
  · exact List.forall_mem_singleton.mpr (assembledPair_wrbCmd idx w)
  · exact List.forall_mem_singleton.mpr (assembledPair_plainCmd hi)
  · exact absurd rfl (hraw w)
  · exact assembledPair_expand p

end Sys2Proof.Machine

/-! ## Arithmetic: rounding and the four operations (spec/40_numerics.md)

A word's value is its whole number of units of 2^-149 (`val_eq_valUnits`). What rounding does is said once by its two
choices, the quantum (`quantumLog_bounds`) and the whole number of quanta (`nearestEven_cases`), and once by its result
(`rne_cases`). That it is R111's over the rationals (`rne_eq_reference`) makes it depend on the exact value alone
(`rne_congr`). -/

namespace Sys2Proof.Machine

open Claims

/-! ### Values in units (R110) -/

/-- The value of a word over the rationals is its number of units. -/
theorem val_eq_valUnits (w : Word) : Reference.val w = valUnits w * (2 : ℚ) ^ (-149 : ℤ) := by
  have hmag : (if expField w = 0 then (fracField w : ℚ) * (2 : ℚ) ^ (-149 : ℤ)
      else (2 ^ 23 + (fracField w : ℚ)) * (2 : ℚ) ^ ((expField w : ℤ) - 150)) =
      (magUnits w : ℚ) * (2 : ℚ) ^ (-149 : ℤ) := by
    rw [magUnits]
    split_ifs with he
    · rfl
    · have hexp : (expField w : ℤ) - 150 = ((expField w - 1 : ℕ) : ℤ) + -149 := by omega
      rw [hexp, zpow_add₀ two_ne_zero, zpow_natCast]
      push_cast
      ring
  rw [Reference.val, hmag, valUnits]
  split_ifs <;> push_cast <;> ring

/-- A product of values counts units of 2^-298. -/
theorem abs_val_mul_val (a b : Word) :
    |Reference.val a * Reference.val b| = ((magUnits a * magUnits b : ℕ) : ℚ) * (2 : ℚ) ^ (-298 : ℤ) := by
  have habs (w : Word) : |Reference.val w| = magUnits w * (2 : ℚ) ^ (-149 : ℤ) := by
    rw [val_eq_valUnits, abs_mul, abs_of_pos (a := (2 : ℚ) ^ (-149 : ℤ)) (by positivity), valUnits]
    split_ifs <;> simp
  have hunit : (2 : ℚ) ^ (-298 : ℤ) = (2 : ℚ) ^ (-149 : ℤ) * (2 : ℚ) ^ (-149 : ℤ) := by
    rw [← zpow_add₀ two_ne_zero]; rfl
  rw [abs_mul, habs, habs, hunit]
  push_cast
  ring

theorem natAbs_valUnits (w : Word) : (valUnits w).natAbs = magUnits w := by
  rw [valUnits]; split_ifs <;> simp

theorem unitsVal_eq_zero_iff (s : Bool) (num : ℕ) {den : ℕ} (hd : 0 < den) :
    unitsVal s num den = 0 ↔ num = 0 := by
  cases s <;> simp [unitsVal, hd.ne']

theorem unitsVal_neg_iff (s : Bool) {num den : ℕ} (hn : 0 < num) (hd : 0 < den) :
    unitsVal s num den < 0 ↔ s = true := by
  have hpos : 0 < (num : ℚ) / den * (2 : ℚ) ^ (-149 : ℤ) := by positivity
  cases s
  · simpa [unitsVal] using hpos.le
  · simpa [unitsVal, neg_mul] using hpos

theorem abs_unitsVal (s : Bool) (num den : ℕ) :
    |unitsVal s num den| = (num : ℚ) / den * (2 : ℚ) ^ (-149 : ℤ) := by
  have hpos : 0 ≤ (num : ℚ) / den * (2 : ℚ) ^ (-149 : ℤ) := by positivity
  cases s <;> simp [unitsVal, abs_mul, abs_div]

/-- A whole number of units, with its sign taken off. -/
theorem unitsVal_natAbs (z : ℤ) : unitsVal (decide (z < 0)) z.natAbs 1 = z * (2 : ℚ) ^ (-149 : ℤ) := by
  rcases lt_or_ge z 0 with h | h
  · have hz : (z.natAbs : ℚ) = -z := by
      rw [← Int.cast_natCast, Int.ofNat_natAbs_of_nonpos h.le, Int.cast_neg]
    simp [unitsVal, h, hz]
  · have hz : (z.natAbs : ℚ) = z := by
      rw [← Int.cast_natCast, Int.natAbs_of_nonneg h]
    simp [unitsVal, h.not_gt, hz]

/-! ### The quantum of R111 -/

/-- The quantum is fixed by the binade of num / den, but never below one unit. -/
theorem quantumLog_bounds (num : ℕ) {den : ℕ} (hd : 0 < den) :
    23 ≤ quantumLog num den ∧ (23 < quantumLog num den → 2 ^ quantumLog num den * den ≤ num) ∧
      num < 2 ^ (quantumLog num den + 1) * den := by
  refine ⟨le_max_right _ _, fun h => ?_, ?_⟩
  · have hlog : quantumLog num den = Nat.log2 (num / den) := by unfold quantumLog at h ⊢; omega
    have hne : num / den ≠ 0 := fun h0 => by rw [hlog, h0] at h; simp at h
    rw [← Nat.le_div_iff_mul_le hd, hlog]
    exact Nat.log2_self_le hne
  · rw [← Nat.div_lt_iff_lt_mul hd]
    exact Nat.lt_log2_self.trans_le (Nat.pow_le_pow_right two_pos (Nat.succ_le_succ (le_max_left _ _)))

/-- The bounds determine the quantum. -/
theorem quantumLog_eq_of_bounds {num den L : ℕ} (hd : 0 < den) (hL : 23 ≤ L) (hlo : 23 < L → 2 ^ L * den ≤ num)
    (hhi : num < 2 ^ (L + 1) * den) : quantumLog num den = L := by
  obtain ⟨h23, hlo', hhi'⟩ := quantumLog_bounds num hd
  have not_lt {a b : ℕ} (ha : num < 2 ^ (a + 1) * den) (hb : 2 ^ b * den ≤ num) : ¬a < b := fun hab =>
    absurd (hb.trans_lt ha) (not_lt.mpr (Nat.mul_le_mul_right den (Nat.pow_le_pow_right two_pos hab)))
  rcases lt_trichotomy (quantumLog num den) L with h | h | h
  · exact absurd h (not_lt hhi' (hlo (by omega)))
  · exact h
  · exact absurd h (not_lt hhi (hlo' (by omega)))

/-- `E` of R111 over the rationals is the model's, 149 lower. -/
theorem log_unitsVal (num : ℕ) {den : ℕ} (hn : 0 < num) (hd : 0 < den) :
    max (Int.log 2 ((num : ℚ) / den * (2 : ℚ) ^ (-149 : ℤ))) (-126) = (quantumLog num den : ℤ) - 149 := by
  obtain ⟨h23, hlo, hhi⟩ := quantumLog_bounds num hd
  generalize quantumLog num den = L at *
  have hpos : 0 < (num : ℚ) / den * (2 : ℚ) ^ (-149 : ℤ) := by positivity
  have hd' : (0 : ℚ) < den := by exact_mod_cast hd
  have scale (k : ℕ) : (2 : ℚ) ^ ((k : ℤ) - 149) = 2 ^ k * (2 : ℚ) ^ (-149 : ℤ) := by
    rw [sub_eq_add_neg, zpow_add₀ two_ne_zero, zpow_natCast]
  have upper : Int.log 2 ((num : ℚ) / den * (2 : ℚ) ^ (-149 : ℤ)) < ((L + 1 : ℕ) : ℤ) - 149 := by
    rw [← Int.lt_zpow_iff_log_lt one_lt_two hpos, Nat.cast_ofNat, scale]
    refine mul_lt_mul_of_pos_right ?_ (by positivity)
    rw [div_lt_iff₀ hd']
    exact_mod_cast hhi
  have lower (h : 23 < L) : (L : ℤ) - 149 ≤ Int.log 2 ((num : ℚ) / den * (2 : ℚ) ^ (-149 : ℤ)) := by
    rw [← Int.zpow_le_iff_le_log one_lt_two hpos, Nat.cast_ofNat, scale]
    refine mul_le_mul_of_nonneg_right ?_ (by positivity)
    rw [le_div_iff₀ hd']
    exact_mod_cast hlo h
  omega

/-! ### The whole number of quanta -/

/-- Down up to a half, up from a half on, and at a half to the even side. -/
theorem nearestEven_cases (num q : ℕ) :
    (nearestEven num q = num / q ∧ 2 * (num % q) ≤ q ∧ (2 * (num % q) = q → num / q % 2 = 0)) ∨
    (nearestEven num q = num / q + 1 ∧ q ≤ 2 * (num % q) ∧ (2 * (num % q) = q → num / q % 2 = 1)) := by
  unfold nearestEven
  split_ifs with h
  · exact .inr ⟨rfl, by omega, by omega⟩
  · exact .inl ⟨rfl, by omega, by omega⟩

/-- No whole number of quanta is nearer than `nearestEven`, and only an even one shares its distance with another. -/
theorem nearestEven_nearest (num : ℕ) {q : ℕ} (hq : 0 < q) (n : ℤ) :
    |(nearestEven num q : ℤ) * q - num| ≤ |n * q - num| ∧
      (n ≠ nearestEven num q → |(nearestEven num q : ℤ) * q - num| = |n * q - num| →
        nearestEven num q % 2 = 0) := by
  have hnum : (num : ℤ) = (num / q : ℕ) * q + (num % q : ℕ) := by exact_mod_cast (Nat.div_add_mod' num q).symm
  have hr : num % q < q := Nat.mod_lt _ hq
  have hcases := nearestEven_cases num q
  rw [hnum]
  generalize nearestEven num q = mi, num % q = r, num / q = d at *
  have hmi : (mi : ℤ) * q = d * q ∧ mi = d ∨ (mi : ℤ) * q = d * q + q ∧ mi = d + 1 := by
    rcases hcases with ⟨rfl, _⟩ | ⟨rfl, _⟩
    · exact .inl ⟨rfl, rfl⟩
    · exact .inr ⟨by push_cast; ring, rfl⟩
  have hn : n * q ≤ d * q - q ∧ n < d ∨ n * q = d * q ∧ n = d ∨ n * q = d * q + q ∧ n = d + 1 ∨
      d * q + 2 * q ≤ n * q ∧ d + 1 < n := by
    rcases lt_trichotomy n d with h | rfl | h
    · exact .inl ⟨by nlinarith, h⟩
    · exact .inr (.inl ⟨rfl, rfl⟩)
    · rcases eq_or_lt_of_le (Int.add_one_le_of_lt h) with rfl | h'
      · exact .inr (.inr (.inl ⟨by ring, rfl⟩))
      · exact .inr (.inr (.inr ⟨by nlinarith, h'⟩))
  rw [abs_eq_max_neg, abs_eq_max_neg]
  generalize (mi : ℤ) * q = miq, n * q = nq, (d : ℤ) * q = dq at *
  omega

theorem le_nearestEven {num q b : ℕ} (hq : 0 < q) (h : b * q ≤ num) : b ≤ nearestEven num q := by
  have hb : b ≤ num / q := (Nat.le_div_iff_mul_le hq).mpr h
  have hcases := nearestEven_cases num q
  omega

/-- Past an odd number of quanta the rounding goes on from the half way on. -/
theorem lt_nearestEven_iff_of_odd {num q b : ℕ} (hq : 0 < q) (hb : b % 2 = 1) :
    b < nearestEven num q ↔ (2 * b + 1) * q ≤ 2 * num := by
  have hnum := Nat.div_add_mod' num q
  have hr : num % q < q := Nat.mod_lt _ hq
  have hcases := nearestEven_cases num q
  generalize nearestEven num q = mi, num % q = r, num / q = d at *
  rcases lt_trichotomy d b with h | rfl | h
  · have hdb := Nat.mul_le_mul_right q h
    have hlow : 2 * num < (2 * b + 1) * q := by nlinarith
    omega
  · rw [add_mul, ← hnum, mul_assoc]
    omega
  · have hbd := Nat.mul_le_mul_right q h
    have hhigh : (2 * b + 1) * q ≤ 2 * num := by nlinarith
    omega

/-! ### The rounded word over the rationals -/

/-- The word built from integer fields is the packed one. -/
theorem fields_eq_packWord (s : Bool) {e f : ℕ} (he : e < 2 ^ 8) (hf : f < 2 ^ 23) :
    Reference.fields s e f = packWord s e f := by
  have hes : (BitVec.ofInt 8 e).toNat = e := by rw [BitVec.ofInt_natCast, BitVec.toNat_ofNat, Nat.mod_eq_of_lt he]
  have hfs : (BitVec.ofInt 23 f).toNat = f := by rw [BitVec.ofInt_natCast, BitVec.toNat_ofNat, Nat.mod_eq_of_lt hf]
  apply BitVec.eq_of_toNat_eq
  rw [packWord_toNat s he hf, Reference.fields, BitVec.toNat_append, BitVec.toNat_append, hes, hfs,
    ← Nat.shiftLeft_add_eq_or_of_lt he, ← Nat.shiftLeft_add_eq_or_of_lt hf]
  cases s <;> simp [Nat.shiftLeft_eq]
  ring

theorem fields_eq_infWord (s : Bool) : Reference.fields s 255 0 = infWord s :=
  fields_eq_packWord s (e := 255) (f := 0) (by norm_num) (by norm_num)

/-- The last lines of R111 for a significand that fits. -/
theorem rnePack_eq (s : Bool) {L mi : ℕ} (hL : 23 ≤ L) (hm : mi < 2 ^ 24) :
    Reference.rnePack s ((L : ℤ) - 149) mi =
      if L > 276 then infWord s else if mi < 2 ^ 23 then packWord s 0 mi else packWord s (L - 22) (mi - 2 ^ 23) := by
  have hover : (L : ℤ) - 149 > 127 ↔ L > 276 := by omega
  have hsub : (mi : ℤ) < 2 ^ 23 ↔ mi < 2 ^ 23 := by omega
  simp only [Reference.rnePack, hover, hsub]
  split_ifs with h1 h2
  · exact fields_eq_infWord s
  · exact fields_eq_packWord s (e := 0) (by norm_num) h2
  · rw [← fields_eq_packWord s (by omega) (by omega)]
    congr 1 <;> omega

/-- A significand that rounds up to 2^24 is 2^23 in the next binade, and so R111 packs it. -/
theorem roundedWord_eq_rnePack (s : Bool) {L mi : ℕ} (hL : 23 ≤ L) (hm : mi ≤ 2 ^ 24) :
    roundedWord s L mi = if (mi : ℤ) = 2 ^ 24 then Reference.rnePack s ((L : ℤ) - 149 + 1) (2 ^ 23)
      else Reference.rnePack s ((L : ℤ) - 149) mi := by
  have hcarry : (mi : ℤ) = 2 ^ 24 ↔ mi = 2 ^ 24 := by omega
  have hnext : Reference.rnePack s ((L : ℤ) - 149 + 1) (2 ^ 23) =
      if L + 1 > 276 then infWord s else packWord s (L + 1 - 22) 0 := by
    have hE : (L : ℤ) - 149 + 1 = ((L + 1 : ℕ) : ℤ) - 149 := by push_cast; ring
    rw [hE]
    exact rnePack_eq s (mi := 2 ^ 23) (by omega) (by norm_num)
  rw [roundedWord]
  by_cases h : mi = 2 ^ 24
  · rw [if_pos h, if_pos (hcarry.mpr h), hnext]
  · rw [if_neg h, if_neg (mt hcarry.mp h), rnePack_eq s hL (by omega)]

/-- `RNE` of R111 from `m` on, for a fraction of whole numbers. -/
theorem rneFrom_eq_roundedWord (s : Bool) {L num q : ℕ} (hL : 23 ≤ L) (hq : 0 < q)
    (hm : nearestEven num q ≤ 2 ^ 24) :
    Reference.rneFrom s ((L : ℤ) - 149) ((num : ℚ) / q) = roundedWord s L (nearestEven num q) := by
  have hq' : (0 : ℚ) < q := by exact_mod_cast hq
  have hfloor : ⌊(num : ℚ) / q⌋ = ((num / q : ℕ) : ℤ) := Rat.floor_natCast_div_natCast num q
  have hrest : (num : ℚ) / q - ((num / q : ℕ) : ℤ) = (num % q : ℕ) / q := by
    rw [← hfloor]
    exact Int.fract_div_natCast_eq_div_natCast_mod
  have habove : ((num % q : ℕ) : ℚ) / q > 1 / 2 ↔ 2 * (num % q) > q := by
    rw [gt_iff_lt, div_lt_div_iff₀ two_pos hq', one_mul, mul_comm]
    exact_mod_cast Iff.rfl
  have htie : ((num % q : ℕ) : ℚ) / q = 1 / 2 ↔ 2 * (num % q) = q := by
    rw [div_eq_div_iff hq'.ne' two_ne_zero, one_mul, mul_comm]
    exact_mod_cast Iff.rfl
  have hodd : ((num / q : ℕ) : ℤ) % 2 = 1 ↔ num / q % 2 = 1 := by omega
  have hmi : (if 2 * (num % q) > q ∨ 2 * (num % q) = q ∧ num / q % 2 = 1 then ((num / q : ℕ) : ℤ) + 1
      else ((num / q : ℕ) : ℤ)) = nearestEven num q := by
    rw [nearestEven]; split_ifs <;> rfl
  rw [roundedWord_eq_rnePack s hL hm, Reference.rneFrom]
  simp only [hfloor, hrest, habove, htie, hodd, hmi]

/-- The model's rounding is `RNE` of R111. -/
theorem rne_eq_reference (s : Bool) (num : ℕ) {den : ℕ} (zs : Bool) (hd : 0 < den) :
    rne s num den zs = Reference.rne (unitsVal s num den) zs := by
  rcases Nat.eq_zero_or_pos num with rfl | hn
  · rw [(unitsVal_eq_zero_iff s 0 hd).mpr rfl]
    exact (fields_eq_packWord zs (e := 0) (f := 0) (by norm_num) (by norm_num)).symm
  · obtain ⟨hL, _, _⟩ := quantumLog_bounds num hd
    have hsign : decide (unitsVal s num den < 0) = s := by simp [unitsVal_neg_iff s hn hd]
    have hm : (num : ℚ) / den * (2 : ℚ) ^ (-149 : ℤ) / 2 ^ ((quantumLog num den : ℤ) - 149 - 23) =
        (num : ℚ) / (den * 2 ^ (quantumLog num den - 23) : ℕ) := by
      have hE : (quantumLog num den : ℤ) - 149 - 23 = -149 + (quantumLog num den - 23 : ℕ) := by omega
      rw [hE, zpow_add₀ two_ne_zero, zpow_natCast, Nat.cast_mul, Nat.cast_pow, Nat.cast_ofNat]
      field_simp
    rw [rne, if_neg hn.ne', Reference.rne, if_neg (mt (unitsVal_eq_zero_iff s num hd).mp hn.ne'), abs_unitsVal,
      log_unitsVal num hn hd, hsign]
    dsimp only
    rw [hm]
    exact (rneFrom_eq_roundedWord s hL (by positivity) (nearestEven_le (quantum_bound num hd))).symm

/-- Settles O29: the quantum, the whole number of quanta and the packed word are those of R111. -/
theorem roundingIsRne : Obligations.RoundingIsRne := fun s num _ zs hd => rne_eq_reference s num zs hd

/-- Rounding depends on the exact value alone, not on the fraction that names it. -/
theorem rne_congr {s : Bool} {num den num' den' : ℕ} (zs : Bool) (hd : 0 < den) (hd' : 0 < den')
    (h : num * den' = num' * den) : rne s num den zs = rne s num' den' zs := by
  have hden : (den : ℚ) ≠ 0 := by exact_mod_cast hd.ne'
  have hden' : (den' : ℚ) ≠ 0 := by exact_mod_cast hd'.ne'
  have hval : (num : ℚ) / den = num' / den' := by
    rw [div_eq_div_iff hden hden']
    exact_mod_cast h
  rw [rne_eq_reference s num zs hd, rne_eq_reference s num' zs hd', unitsVal, unitsVal, hval]

/-! ### The rounded word: its class, sign and magnitude -/

theorem isInf_infWord (s : Bool) : isInf (infWord s) = true := by
  cases s <;> decide

theorem signBit_infWord (s : Bool) : signBit (infWord s) = s := by
  cases s <;> decide

/-- A packed word below the last exponent field is finite, and its magnitude is that of its fields. -/
theorem packWord_finite (s : Bool) {e f : ℕ} (he : e < 255) (hf : f < 2 ^ 23) :
    isFinite (packWord s e f) = true ∧ signBit (packWord s e f) = s ∧
      magUnits (packWord s e f) = (if e = 0 then f else (2 ^ 23 + f) * 2 ^ (e - 1)) ∧
      fracField (packWord s e f) = f := by
  obtain ⟨hsign, hexp, hfrac⟩ := packWord_fields s (e := e) (by omega) hf
  exact ⟨by simp [isFinite, hexp, he.ne], hsign, by rw [magUnits, hexp, hfrac], hfrac⟩

/-- Past the last binade packing gives an infinity. -/
theorem roundedWord_overflow (s : Bool) {L mi : ℕ} (h : 276 < L ∨ L = 276 ∧ mi = 2 ^ 24) :
    roundedWord s L mi = infWord s := by
  unfold roundedWord
  split_ifs
  · rfl
  · omega
  · rfl
  all_goals omega

/-- Up to the last binade packing gives the finite word of `mi` quanta; its fraction has the parity of `mi`. -/
theorem roundedWord_finite (s : Bool) {L mi : ℕ} (hL : 23 ≤ L) (hm : mi ≤ 2 ^ 24) (hlo : 23 < L → 2 ^ 23 ≤ mi)
    (h : ¬(276 < L ∨ L = 276 ∧ mi = 2 ^ 24)) :
    isFinite (roundedWord s L mi) = true ∧ signBit (roundedWord s L mi) = s ∧
      magUnits (roundedWord s L mi) = mi * 2 ^ (L - 23) ∧ fracField (roundedWord s L mi) % 2 = mi % 2 := by
  obtain ⟨k, rfl⟩ := Nat.exists_eq_add_of_le hL
  rw [Nat.add_sub_cancel_left]
  unfold roundedWord
  split_ifs with hcarry hover hover hsub
  · omega
  · obtain ⟨hfin, hsign, hmag, hfrac⟩ := packWord_finite s (e := 23 + k + 1 - 22) (f := 0) (by omega) (by norm_num)
    have he : 23 + k + 1 - 22 - 1 = k + 1 := by omega
    rw [if_neg (by omega), he] at hmag
    exact ⟨hfin, hsign, by rw [hmag, hcarry]; ring, by omega⟩
  · omega
  · obtain ⟨hfin, hsign, hmag, hfrac⟩ := packWord_finite s (e := 0) (by norm_num) hsub
    have hk : k = 0 := by omega
    exact ⟨hfin, hsign, by simp [hmag, hk], by rw [hfrac]⟩
  · obtain ⟨hfin, hsign, hmag, hfrac⟩ :=
      packWord_finite s (e := 23 + k - 22) (f := mi - 2 ^ 23) (by omega) (by omega)
    have he : 23 + k - 22 - 1 = k := by omega
    have hmi : 2 ^ 23 + (mi - 2 ^ 23) = mi := by omega
    rw [if_neg (by omega), he, hmi] at hmag
    exact ⟨hfin, hsign, hmag, by omega⟩

/-- The number of quanta R111 rounds num / den units to. -/
def quanta (num den : ℕ) : ℕ := nearestEven num (den * 2 ^ (quantumLog num den - 23))

/-- The rounded value without its sign, in units. -/
def roundedUnits (num den : ℕ) : ℕ := quanta num den * 2 ^ (quantumLog num den - 23)

theorem rne_eq_roundedWord (s : Bool) {num : ℕ} (den : ℕ) (zs : Bool) (hn : 0 < num) :
    rne s num den zs = roundedWord s (quantumLog num den) (quanta num den) := if_neg hn.ne'

/-- Past the last binade is from OVF on: 2^24 - 1/2 quanta of the last binade. -/
theorem overflow_iff (num : ℕ) {den : ℕ} (hd : 0 < den) :
    (276 < quantumLog num den ∨ quantumLog num den = 276 ∧ quanta num den = 2 ^ 24) ↔
      (2 ^ 277 - 2 ^ 252) * den ≤ num := by
  obtain ⟨_, hlo, hhi⟩ := quantumLog_bounds num hd
  have hle : quanta num den ≤ 2 ^ 24 := nearestEven_le (quantum_bound num hd)
  unfold quanta at hle ⊢
  generalize quantumLog num den = L at *
  have split (k : ℕ) : 2 ^ (k + 252) * den = 2 ^ k * (2 ^ 252 * den) := by rw [pow_add, mul_assoc]
  have hovf : (2 ^ 277 - 2 ^ 252) * den = (2 ^ 25 - 1) * (2 ^ 252 * den) := by
    rw [Nat.sub_mul, split 25, Nat.sub_mul, one_mul]
  have mono {a b : ℕ} (h : a ≤ b) : 2 ^ a * den ≤ 2 ^ b * den :=
    Nat.mul_le_mul_right den (Nat.pow_le_pow_right two_pos h)
  rw [hovf]
  rcases lt_trichotomy L 276 with h | rfl | h
  · have hnum := hhi.trans_le (mono (b := 24 + 252) (by omega))
    rw [split] at hnum
    generalize 2 ^ 252 * den = c at *
    omega
  · have hq : den * 2 ^ (276 - 23) = 2 * (2 ^ 252 * den) := (mul_comm _ _).trans (split 1)
    have hodd := lt_nearestEven_iff_of_odd (num := num) (q := 2 * (2 ^ 252 * den)) (b := 2 ^ 24 - 1) (by positivity) rfl
    rw [hq] at hle ⊢
    generalize 2 ^ 252 * den = c at *
    omega
  · have hnum := (mono (a := 25 + 252) (by omega)).trans (hlo (by omega))
    rw [split] at hnum
    generalize 2 ^ 252 * den = c at *
    omega

/-- What rounding a non-zero value gives: an infinity from OVF on, and below it the finite word of the rounded number
of quanta; its fraction has the parity of that number. -/
theorem rne_cases (s : Bool) {num den : ℕ} (zs : Bool) (hn : 0 < num) (hd : 0 < den) :
    ((2 ^ 277 - 2 ^ 252) * den ≤ num ∧ rne s num den zs = infWord s) ∨
    (num < (2 ^ 277 - 2 ^ 252) * den ∧ isFinite (rne s num den zs) = true ∧ signBit (rne s num den zs) = s ∧
      magUnits (rne s num den zs) = roundedUnits num den ∧
      fracField (rne s num den zs) % 2 = quanta num den % 2) := by
  obtain ⟨h23, hlo, _⟩ := quantumLog_bounds num hd
  have hle : quanta num den ≤ 2 ^ 24 := nearestEven_le (quantum_bound num hd)
  have hge (h : 23 < quantumLog num den) : 2 ^ 23 ≤ quanta num den := by
    refine le_nearestEven (by positivity) ((le_of_eq ?_).trans (hlo h))
    have hpow : 2 ^ quantumLog num den = 2 ^ 23 * 2 ^ (quantumLog num den - 23) := by rw [← pow_add]; congr 1; omega
    rw [hpow]; ring
  rw [rne_eq_roundedWord s den zs hn]
  rcases le_or_gt ((2 ^ 277 - 2 ^ 252) * den) num with h | h
  · exact .inl ⟨h, roundedWord_overflow s ((overflow_iff num hd).mpr h)⟩
  · exact .inr ⟨h, roundedWord_finite s h23 hle hge (mt (overflow_iff num hd).mp h.not_ge)⟩

theorem isInf_zeroWord (s : Bool) : isInf (zeroWord s) = false := by
  cases s <;> decide

theorem rne_zero (s : Bool) (den : ℕ) (zs : Bool) : rne s 0 den zs = zeroWord zs := if_pos rfl

/-- Settles O31: a zero value is below OVF and rounds to a zero; else the two cases of `rne_cases`. -/
theorem overflowThreshold : Obligations.OverflowThreshold := by
  intro s num den zs hd
  rcases Nat.eq_zero_or_pos num with rfl | hn
  · have hbelow : ¬(2 ^ 277 - 2 ^ 252) * den ≤ 0 := mt (overflow_iff 0 hd).mpr (by simp [quantumLog])
    rw [rne_zero, isInf_zeroWord]
    exact ⟨iff_of_false Bool.false_ne_true hbelow, fun h => absurd h Bool.false_ne_true⟩
  · rcases rne_cases s zs hn hd with ⟨h, hinf⟩ | ⟨h, hfin, _⟩
    · rw [hinf]
      exact ⟨iff_of_true (isInf_infWord s) h, fun _ => signBit_infWord s⟩
    · rw [isInf_of_isFinite hfin]
      exact ⟨iff_of_false Bool.false_ne_true h.not_ge, fun h => absurd h Bool.false_ne_true⟩

/-! ### Nearest, and even on a tie -/

/-- The units of a word, counted in the direction of sign `s`. -/
def unitsToward (s : Bool) (w : Word) : ℤ := if s then -valUnits w else valUnits w

theorem unitsToward_signBit (w : Word) : unitsToward (signBit w) w = magUnits w := by
  rw [unitsToward, valUnits]
  split_ifs <;> simp

theorem natAbs_unitsToward (s : Bool) (w : Word) : (unitsToward s w).natAbs = magUnits w := by
  rw [← natAbs_valUnits, unitsToward]
  split_ifs <;> simp

theorem val_eq_unitsToward (s : Bool) (w : Word) :
    Reference.val w = (if s then -1 else 1) * (unitsToward s w * (2 : ℚ) ^ (-149 : ℤ)) := by
  rw [val_eq_valUnits, unitsToward]
  split_ifs <;> simp

/-- The distance of a word from an exact value, in whole numbers. -/
theorem abs_val_sub_unitsVal (s : Bool) (w : Word) (num : ℕ) {den : ℕ} (hd : 0 < den) :
    |Reference.val w - unitsVal s num den| =
      ((|unitsToward s w * den - num| : ℤ) : ℚ) * ((2 : ℚ) ^ (-149 : ℤ) / den) := by
  have hd' : (den : ℚ) ≠ 0 := by exact_mod_cast hd.ne'
  have hunit : (0 : ℚ) ≤ (2 : ℚ) ^ (-149 : ℤ) / den := by positivity
  have hdiff : Reference.val w - unitsVal s num den =
      (if s then -1 else 1) * ((unitsToward s w * den - num) * ((2 : ℚ) ^ (-149 : ℤ) / den)) := by
    rw [val_eq_unitsToward s, unitsVal]
    field_simp
  have hsign : |(if s then -1 else 1 : ℚ)| = 1 := by split_ifs <;> simp
  rw [hdiff, abs_mul, hsign, one_mul, abs_mul, abs_of_nonneg hunit]
  push_cast
  rfl

/-- A word is a whole number of quanta of a binade, or lies below that binade. -/
theorem quantum_dvd_or_lt (w : Word) {L : ℕ} (hL : 23 ≤ L) :
    2 ^ (L - 23) ∣ magUnits w ∨ 23 < L ∧ magUnits w < 2 ^ L := by
  have hf := fracField_lt w
  rcases eq_or_lt_of_le hL with rfl | hL'
  · exact .inl (one_dvd _)
  · rw [magUnits]
    split_ifs with he
    · exact .inr ⟨hL', hf.trans (Nat.pow_lt_pow_right one_lt_two hL')⟩
    · rcases le_or_gt (L - 23) (expField w - 1) with h | h
      · exact .inl (Dvd.dvd.mul_left (pow_dvd_pow 2 h) _)
      · refine .inr ⟨hL', ?_⟩
        calc (2 ^ 23 + fracField w) * 2 ^ (expField w - 1)
            < 2 ^ 24 * 2 ^ (expField w - 1) := Nat.mul_lt_mul_of_pos_right (by omega) (by positivity)
          _ = 2 ^ (24 + (expField w - 1)) := (pow_add ..).symm
          _ ≤ 2 ^ L := Nat.pow_le_pow_right two_pos (by omega)

/-- No word's number of units is nearer to num / den than the rounded one, and only an even number of quanta shares its
distance with another. -/
theorem roundedUnits_nearest {num den : ℕ} (hd : 0 < den) {v : ℤ}
    (hv : 2 ^ (quantumLog num den - 23) ∣ v.natAbs ∨
      23 < quantumLog num den ∧ v.natAbs < 2 ^ quantumLog num den) :
    |(roundedUnits num den : ℤ) * den - num| ≤ |v * den - num| ∧
      (v ≠ roundedUnits num den → |(roundedUnits num den : ℤ) * den - num| = |v * den - num| →
        quanta num den % 2 = 0) := by
  obtain ⟨_, hlo, _⟩ := quantumLog_bounds num hd
  have hnear (n : ℤ) := nearestEven_nearest num (q := den * 2 ^ (quantumLog num den - 23)) (by positivity) n
  have hquanta (n : ℤ) : n * (2 ^ (quantumLog num den - 23) : ℕ) * den =
    n * (den * 2 ^ (quantumLog num den - 23) : ℕ) := by push_cast; ring
  rw [roundedUnits, Nat.cast_mul, hquanta]
  rcases hv with hv | ⟨hL, hv⟩
  · obtain ⟨n, rfl⟩ := Int.natCast_dvd.mpr hv
    rw [mul_comm _ n, hquanta]
    exact ⟨(hnear n).1, fun hne => (hnear n).2 fun h => hne (by rw [h]; rfl)⟩
  · have hbelow : |((2 ^ 23 : ℕ) : ℤ) * (den * 2 ^ (quantumLog num den - 23) : ℕ) - num| < |v * den - num| := by
      have hpow : 2 ^ 23 * (den * 2 ^ (quantumLog num den - 23)) = 2 ^ quantumLog num den * den := by
        rw [mul_left_comm, ← pow_add, mul_comm, Nat.add_sub_cancel' hL.le]
      have hnum : ((2 ^ 23 : ℕ) : ℤ) * (den * 2 ^ (quantumLog num den - 23) : ℕ) ≤ num := by
        rw [← Nat.cast_mul, hpow]
        exact_mod_cast hlo hL
      have hlt : v * den < ((2 ^ 23 : ℕ) : ℤ) * (den * 2 ^ (quantumLog num den - 23) : ℕ) := by
        rw [← Nat.cast_mul, hpow, Nat.cast_mul]
        exact mul_lt_mul_of_pos_right (by omega) (by exact_mod_cast hd)
      rw [abs_of_nonpos (by omega), abs_of_nonpos (by omega)]
      omega
    exact ⟨(hnear _).1.trans hbelow.le, fun _ h => absurd h ((hnear _).1.trans_lt hbelow).ne⟩

/-- Settles O30: distances are compared in whole numbers, where every finite word is a whole number of quanta or lies
below the binade of the exact value. -/
theorem roundingIsNearestEven : Obligations.RoundingIsNearestEven := by
  intro s num den zs w hn hd hfin _
  rcases rne_cases s zs hn hd with ⟨_, hinf⟩ | ⟨_, _, hsign, hmag, hfrac⟩
  · rw [hinf] at hfin
    exact absurd (isInf_infWord s) (by simp [isInf_of_isFinite hfin])
  · obtain ⟨h23, _, _⟩ := quantumLog_bounds num hd
    have hr : unitsToward s (rne s num den zs) = roundedUnits num den := by
      rw [← hmag, ← unitsToward_signBit, hsign]
    have hgrid := quantum_dvd_or_lt w h23
    rw [← natAbs_unitsToward s] at hgrid
    obtain ⟨hle, htie⟩ := roundedUnits_nearest hd hgrid
    have hunit : (0 : ℚ) < (2 : ℚ) ^ (-149 : ℤ) / den := by positivity
    rw [abs_val_sub_unitsVal s _ num hd, abs_val_sub_unitsVal s _ num hd, mul_le_mul_iff_left₀ hunit,
      mul_left_inj' hunit.ne', Int.cast_le, Int.cast_inj, hr, hfrac]
    refine ⟨hle, fun hne => htie fun h => hne ?_⟩
    rw [val_eq_unitsToward s, val_eq_unitsToward s, hr, h]

/-! ### The operations over the rationals (R112 to R114) -/

theorem zeroWord_eq (s : Bool) : zeroWord s = if s then 0x80000000#32 else 0x00000000#32 := by
  cases s <;> rfl

theorem fadd_eq_reference (nan x y : Word) : fadd nan x y = Reference.fadd nan x y := by
  have hsum : Reference.val x + Reference.val y =
      unitsVal (decide (valUnits x + valUnits y < 0)) (valUnits x + valUnits y).natAbs 1 := by
    rw [unitsVal_natAbs, val_eq_valUnits, val_eq_valUnits]
    push_cast
    ring
  rw [fadd, Reference.fadd]
  simp only [hsum, unitsVal_eq_zero_iff _ _ one_pos, Int.natAbs_eq_zero, zeroWord_eq, rne_eq_reference _ _ _ one_pos]
  rfl

theorem fmul_eq_reference (nan x y : Word) : fmul nan x y = Reference.fmul nan x y := by
  have hprod : Reference.val x * Reference.val y =
      unitsVal (signBit x != signBit y) (magUnits x * magUnits y) (2 ^ 149) := by
    rw [val_eq_unitsToward (signBit x), val_eq_unitsToward (signBit y), unitsToward_signBit, unitsToward_signBit,
      unitsVal, zpow_neg]
    cases signBit x <;> cases signBit y <;> push_cast <;> field_simp <;> norm_num
  rw [fmul, Reference.fmul]
  simp only [hprod, fields_eq_infWord, rne_eq_reference _ _ _ (show 0 < 2 ^ 149 by norm_num)]
  rfl

theorem eq_of_isInf {x y : Word} (hx : isInf x = true) (hy : isInf y = true) (hs : signBit x = signBit y) :
    x = y := by
  obtain ⟨hxe, hxf⟩ := (isInf_iff x).mp hx
  obtain ⟨hye, hyf⟩ := (isInf_iff y).mp hy
  exact fields_ext hs (hxe.trans hye.symm) (hxf.trans hyf.symm)

/-- With one and the same NAN_OUT addition is commutative. -/
theorem fadd_comm (nan x y : Word) : fadd nan x y = fadd nan y x := by
  rcases class_cases x with ⟨hx, _⟩ | ⟨hxn, hxi, _⟩ | ⟨hxn, hxi, hxf⟩
  · rw [fadd_nan (.inl hx), fadd_nan (.inr hx)]
  · rcases class_cases y with ⟨hy, _⟩ | ⟨hyn, hyi, _⟩ | ⟨hyn, hyi, hyf⟩
    · rw [fadd_nan (.inr hy), fadd_nan (.inl hy)]
    · by_cases hs : signBit x = signBit y
      · rw [eq_of_isInf hxi hyi hs]
      · simp [fadd, hxn, hxi, hyn, hyi, hs, Ne.symm hs]
    · simp [fadd, hxn, hxi, hyn, hyi]
  · rcases class_cases y with ⟨hy, _⟩ | ⟨hyn, hyi, _⟩ | ⟨hyn, hyi, hyf⟩
    · rw [fadd_nan (.inr hy), fadd_nan (.inl hy)]
    · simp [fadd, hxn, hxi, hyn, hyi]
    · rw [fadd_finite hxf hyf, fadd_finite hyf hxf, add_comm, Bool.and_comm]

/-- With one and the same NAN_OUT multiplication is commutative. -/
theorem fmul_comm (nan x y : Word) : fmul nan x y = fmul nan y x := by
  have hinvalid : ((isInf x && isZero y) || (isZero x && isInf y)) =
      ((isInf y && isZero x) || (isZero y && isInf x)) := by
    rw [Bool.or_comm, Bool.and_comm (isZero x), Bool.and_comm (isInf x)]
  rw [fmul, fmul, hinvalid, Bool.or_comm (isNaN x), Bool.or_comm (isInf x), bne_comm, mul_comm]

/-- An operation that is commutative with one NAN_OUT, and gives either NAN_OUT or one word that is no NaN, is
commutative with two where the result is no NaN. -/
theorem op_swap {op : Word → Word → Word → Word} (hcomm : ∀ nan x y, op nan x y = op nan y x)
    (hc : ∀ x y, (∀ nan, op nan x y = nan) ∨ ∃ w, isNaN w = false ∧ ∀ nan, op nan x y = w)
    {nan x y : Word} (nan' : Word) (hnan : isNaN nan = true) (h : isNaN (op nan x y) = false) :
    op nan x y = op nan' y x := by
  rw [hcomm nan' y x]
  rcases hc x y with hout | ⟨w, _, hw⟩
  · rw [hout, hnan] at h
    cases h
  · rw [hw, hw]

/-- Settles O32: 1 + 2^-24 is a tie that rounds down to 1, while 2^-24 + 2^-24 reaches the next word after 1. -/
theorem faddIsR112 : Obligations.FaddIsR112 := by
  refine ⟨fadd_eq_reference, fun nan nan' x y => op_swap fadd_comm fadd_cases nan', fun nan => ?_⟩
  have htie : fadd nan 0x3F800000 0x33800000 = 0x3F800000 :=
    (fadd_finite (by decide) (by decide)).trans (by decide +kernel)
  have hsmall : fadd nan 0x33800000 0x33800000 = 0x34000000 :=
    (fadd_finite (by decide) (by decide)).trans (by decide +kernel)
  have hnext : fadd nan 0x3F800000 0x34000000 = 0x3F800001 :=
    (fadd_finite (by decide) (by decide)).trans (by decide +kernel)
  rw [htie, htie, hsmall, hnext]
  decide

/-- Settles O33: the product counts units of 2^-298, so its value is that of R114. -/
theorem fmulIsR114 : Obligations.FmulIsR114 :=
  ⟨fmul_eq_reference, fun _ nan' _ _ => op_swap fmul_comm fmul_cases nan'⟩

theorem fsub_self {nan a : Word} (ha : isFinite a = true) : fsub nan a a = 0 := by
  obtain ⟨hsign, _⟩ := fneg_fields a
  rw [fsub_finite ha, fadd_finite ha (by simpa using ha), valUnits_fneg, add_neg_cancel, if_pos rfl, hsign,
    Bool.and_not_self]
  rfl

theorem fsub_inf_self {nan x : Word} (hx : isInf x = true) : fsub nan x x = nan := by
  obtain ⟨hsign, _⟩ := fneg_fields x
  rw [fsub, fadd, isInf_fneg, hsign]
  simp [hx]

/-- Settles O34: the differences of finite words are sums with the negated word, and an infinity and its negation are
opposite infinities. -/
theorem fsubIsAdditionOfTheNegated : Obligations.FsubIsAdditionOfTheNegated := by
  refine ⟨fun nan x y hy => by simp [fsub, hy], fun nan x y hy => fsub_nan (.inr hy), fun nan a => fsub_self,
    fun nan => ⟨fsub_self (by decide), ?_, ?_, fsub_inf_self (by decide), fsub_inf_self (by decide)⟩⟩
  · exact (fsub_finite (by decide)).trans ((fadd_finite (by decide) (by decide)).trans (by decide))
  · exact (fsub_finite (by decide)).trans ((fadd_finite (by decide) (by decide)).trans (by decide))

/-- Settles O35: the mask has bit 31 set and no lower bit. -/
theorem fnegFlipsBit31 : Obligations.FnegFlipsBit31 := by
  have hmask : ∀ i < 31, (0x80000000#32).getLsbD i = false := by decide
  refine fun x => ⟨by simp [fneg], fun i hi => ?_⟩
  rw [fneg, BitVec.getLsbD_xor, hmask i hi, Bool.xor_false]

/-! ### NaN patterns (R117) -/

/-- A NaN word is the pattern of itself as a free value. -/
theorem nanWord_of_isNaN {w : Word} (h : isNaN w = true) : nanWord w = w := by
  obtain ⟨hexp, hfrac⟩ := (isNaN_iff w).mp h
  rw [nanWord, if_neg hfrac, ← hexp, packWord_of_fields]

/-- Settles O36: the free value of a NaN word is the word itself. -/
theorem nanPatternsAreAllAndOnlyNans : Obligations.NanPatternsAreAllAndOnlyNans :=
  ⟨isNaN_nanDraw, fun w h => ⟨w, nanWord_of_isNaN h⟩⟩

/-- Settles O37: the sequencer's line transforms are FWD1D and INV1D. -/
theorem nanBitsNeverMatter : Obligations.NanBitsNeverMatter := fun _ _ _ _ hn hn' hv =>
  ⟨sameOrNaN_seqLine1d .fwd2 hn hn' hv, sameOrNaN_seqLine1d .inv2 hn hn' hv⟩

/-! ### Scaling by K (R120) -/

theorem nearestEven_mul (m : ℕ) {q : ℕ} (hq : 0 < q) : nearestEven (m * q) q = m := by
  simp [nearestEven, Nat.mul_div_cancel m hq, hq.ne]

/-- A whole number of quanta with a significand of 24 bits is not rounded. -/
theorem rne_exact (s : Bool) {m k : ℕ} (zs : Bool) (hm0 : 0 < m) (hm : m < 2 ^ 24) (hk : 0 < k → 2 ^ 23 ≤ m) :
    rne s (m * 2 ^ k) 1 zs = roundedWord s (23 + k) m := by
  have hL : quantumLog (m * 2 ^ k) 1 = 23 + k := by
    refine quantumLog_eq_of_bounds one_pos (by omega) (fun h => ?_) ?_
    · rw [mul_one, pow_add]
      exact Nat.mul_le_mul_right _ (hk (by omega))
    · rw [mul_one, add_right_comm, pow_add]
      exact Nat.mul_lt_mul_of_pos_right hm (by positivity)
  rw [rne_eq_roundedWord s 1 zs (by positivity), quanta, hL, one_mul, Nat.add_sub_cancel_left,
    nearestEven_mul m (by positivity)]

/-- The value of a finite word rounds to the word. -/
theorem rne_magUnits {w : Word} (hw : isFinite w = true) : rne (signBit w) (magUnits w) 1 (signBit w) = w := by
  have hf := fracField_lt w
  have he := expField_lt w
  have hfin := (isFinite_iff w).mp hw
  conv_rhs => rw [← packWord_of_fields w]
  rcases Nat.eq_zero_or_eq_succ_pred (expField w) with he0 | hsucc
  · have hmag : magUnits w = fracField w := by rw [magUnits, if_pos he0]
    rw [hmag, he0]
    rcases Nat.eq_zero_or_pos (fracField w) with hf0 | hf0
    · rw [hf0, rne_zero, zeroWord]
    · have hexact := rne_exact (signBit w) (k := 0) (signBit w) hf0 (by omega) (by omega)
      rw [pow_zero, mul_one] at hexact
      rw [hexact, roundedWord, if_neg (by omega), if_neg (by omega), if_pos hf]
  · generalize (expField w).pred = k at hsucc
    have hmag : magUnits w = (2 ^ 23 + fracField w) * 2 ^ k := by
      rw [magUnits, if_neg (by omega), hsucc, Nat.succ_sub_one]
    rw [hmag, rne_exact _ _ (by omega) (by omega) (by omega), roundedWord, if_neg (by omega), if_neg (by omega),
      if_neg (by omega), Nat.add_sub_cancel_left, hsucc, show 23 + k - 22 = k + 1 by omega]

/-- An eighth of a value of at least 2^26 units lies three binades lower. -/
theorem quantumLog_eighth {num den : ℕ} (hd : 0 < den) (h : 2 ^ 26 * den ≤ num) :
    quantumLog num den = quantumLog num (8 * den) + 3 := by
  obtain ⟨_, hlo, hhi⟩ := quantumLog_bounds num hd
  have heighth (j : ℕ) : 2 ^ j * (8 * den) = 2 ^ (j + 3) * den := by rw [pow_add]; ring
  have hL : 26 ≤ quantumLog num den := by
    by_contra hlt
    have hpow : 2 ^ (quantumLog num den + 1) * den ≤ 2 ^ 26 * den :=
      Nat.mul_le_mul_right den (Nat.pow_le_pow_right two_pos (by omega))
    omega
  obtain ⟨k, hk⟩ := Nat.exists_eq_add_of_le' hL
  rw [hk] at hlo hhi
  have hL8 : quantumLog num (8 * den) = k + 23 := by
    refine quantumLog_eq_of_bounds (by positivity) (by omega) (fun _ => ?_) ?_
    · rw [heighth]; exact hlo (by omega)
    · rw [heighth]; exact hhi
  rw [hk, hL8]

/-- An eighth of it rounds to the same number of quanta, of an eighth of the size. -/
theorem roundedUnits_eighth {num den : ℕ} (hd : 0 < den) (h : 2 ^ 26 * den ≤ num) :
    roundedUnits num den = 8 * roundedUnits num (8 * den) := by
  obtain ⟨h23, _, _⟩ := quantumLog_bounds num (by positivity : 0 < 8 * den)
  have hpow : 2 ^ (quantumLog num den - 23) = 8 * 2 ^ (quantumLog num (8 * den) - 23) := by
    rw [quantumLog_eighth hd h, Nat.sub_add_comm h23, pow_add, mul_comm]
    rfl
  have hquanta : quanta num den = quanta num (8 * den) := by
    rw [quanta, quanta, hpow, mul_left_comm, mul_assoc]
  rw [roundedUnits, roundedUnits, hpow, hquanta, mul_left_comm]

/-- An eighth of a value away from the range ends rounds to the eighth of the rounded value. -/
theorem rne_eighth (s : Bool) {num den : ℕ} (hd : 0 < den) (hlo : 2 ^ 26 * den ≤ num)
    (hhi : num < (2 ^ 277 - 2 ^ 252) * den) : rne s num (8 * den) s = rne s (magUnits (rne s num den s)) 8 s := by
  have hn : 0 < num := (by positivity : 0 < 2 ^ 26 * den).trans_le hlo
  rcases rne_cases s s hn hd with ⟨h, _⟩ | ⟨_, _, _, hmag, _⟩
  · exact absurd h hhi.not_ge
  rcases rne_cases s s hn (by positivity : 0 < 8 * den) with ⟨h, _⟩ | ⟨_, hfin8, hsign8, hmag8, _⟩
  · omega
  have hexact := rne_magUnits hfin8
  rw [hsign8, hmag8] at hexact
  rw [hmag, roundedUnits_eighth hd hlo, ← hexact]
  exact rne_congr s one_pos (by norm_num) (by ring)

/-- Each of the six constants is a positive finite word of eight times the units of its K-scaled partner. -/
theorem romTable_scaled (i : Fin 6) :
    (isFinite romTable[i.val] = true ∧ signBit romTable[i.val] = false) ∧
    (isFinite romTable[i.val + 7] = true ∧ signBit romTable[i.val + 7] = false) ∧
    magUnits romTable[i.val] = 8 * magUnits romTable[i.val + 7] := by
  revert i; decide +kernel

/-- A product with K, which is 2^-3, is the eighth, rounded once. -/
theorem fmul_K {nan w : Word} (hw : isFinite w = true) :
    fmul nan w romTable[6] = rne (signBit w) (magUnits w) 8 (signBit w) := by
  have hK : isFinite romTable[6] = true ∧ signBit romTable[6] = false ∧ magUnits romTable[6] = 2 ^ 146 := by
    decide +kernel
  obtain ⟨hfin, hsign, hmag⟩ := hK
  rw [fmul_finite hw hfin, hsign, hmag, Bool.bne_false]
  exact rne_congr _ (by norm_num) (by norm_num) (by rw [mul_assoc]; rfl)

/-- The range of R120 for a product of `p` units of 2^-298, in whole numbers. -/
theorem scalingRange_units {p : ℕ} (hlo : (2 : ℚ) ^ (-123 : ℤ) ≤ p * (2 : ℚ) ^ (-298 : ℤ))
    (hhi : p * (2 : ℚ) ^ (-298 : ℤ) < 2 ^ 128 - 2 ^ 103) :
    2 ^ 26 * 2 ^ 149 ≤ p ∧ p < (2 ^ 277 - 2 ^ 252) * 2 ^ 149 := by
  have hunit : (0 : ℚ) < (2 : ℚ) ^ (-298 : ℤ) := by positivity
  have scale (k : ℕ) : (2 : ℚ) ^ ((k : ℤ) - 298) = 2 ^ k * (2 : ℚ) ^ (-298 : ℤ) := by
    rw [sub_eq_add_neg, zpow_add₀ two_ne_zero, zpow_natCast]
  have hovf : (2 : ℚ) ^ 128 - 2 ^ 103 = (2 ^ (277 + 149) - 2 ^ (252 + 149)) * (2 : ℚ) ^ (-298 : ℤ) := by
    rw [sub_mul, ← scale, ← scale, ← zpow_natCast 2 128, ← zpow_natCast 2 103]
    norm_num
  constructor
  · rw [show (-123 : ℤ) = (26 + 149 : ℕ) - 298 by norm_num, scale, mul_le_mul_iff_left₀ hunit, pow_add] at hlo
    exact_mod_cast hlo
  · rw [hovf, mul_lt_mul_iff_left₀ hunit, lt_sub_iff_add_lt] at hhi
    rw [Nat.sub_mul, ← pow_add, ← pow_add]
    exact Nat.lt_sub_of_add_lt (by exact_mod_cast hhi)

/-- Settles O38: a zero product stays the zero of its sign, and any other is rounded once, to the same eighth in both
forms (`rne_eighth`). -/
theorem scalingByKCommutesWithRounding : Obligations.ScalingByKCommutesWithRounding := by
  intro nan x i hx hp
  obtain ⟨⟨hc, hcs⟩, ⟨hcK, hcKs⟩, hmag⟩ := romTable_scaled i
  have hscaled : fmul nan romTable[i.val + 7] x =
      rne (signBit x) (magUnits romTable[i.val] * magUnits x) (8 * 2 ^ 149) (signBit x) := by
    rw [fmul_finite hcK hx, hcKs, Bool.false_bne]
    exact rne_congr _ (by norm_num) (by norm_num) (by rw [hmag]; ring)
  have hplain : fmul nan romTable[i.val] x =
      rne (signBit x) (magUnits romTable[i.val] * magUnits x) (2 ^ 149) (signBit x) := by
    rw [fmul_finite hc hx, hcs, Bool.false_bne]
  have habs := abs_val_mul_val romTable[i.val] x
  rw [hscaled, hplain]
  generalize magUnits romTable[i.val] * magUnits x = p at *
  rcases hp with hzero | ⟨hlo, hhi⟩
  · have hp0 : p = 0 := by simpa [hzero] using habs
    obtain ⟨hfin, hsign, hmag0, _⟩ := packWord_finite (signBit x) (e := 0) (f := 0) (by norm_num) (by norm_num)
    rw [hp0, rne_zero, rne_zero, zeroWord, fmul_K hfin, hsign, hmag0, if_pos rfl, rne_zero, zeroWord]
  · rw [habs] at hlo hhi
    obtain ⟨hlow, hhigh⟩ := scalingRange_units hlo hhi
    rcases rne_cases (signBit x) (signBit x) (by omega : 0 < p) (by norm_num : 0 < 2 ^ 149) with
      ⟨h, _⟩ | ⟨_, hfin, hsign, _⟩
    · exact absurd h hhigh.not_ge
    · rw [fmul_K hfin, hsign]
      exact rne_eighth (signBit x) (by norm_num) hlow hhigh

end Sys2Proof.Machine

/-! ## The ROM (spec/41_basis_rom.md)

The ROM's words are held to R141 by reading them, the K-scaled six to R144 by the units of their constants
(`romTable_scaled`), and the six constants to R142 by nested square roots: `sqrt(2) cos x` is `sqrt(1 + cos 2x)`, and
the cosines of the multiples of pi/8 are square roots again, so that one bound on a square root (`abs_sub_sqrt_le`)
serves them all. -/

namespace Sys2Proof.Machine

open Claims

/-! ### The words and their reading (R141, R145, R146) -/

/-- Settles O39: all sixteen slots, read one by one. -/
theorem romHoldsTheThirteenWords : Obligations.RomHoldsTheThirteenWords := by
  unfold Obligations.RomHoldsTheThirteenWords
  decide

/-- The word of RDC, as R88 writes it, is its encoding. -/
theorem rdcWord_eq_encode (k : BitVec 4) : 0x30000000#32 + k.setWidth 32 = encode (.rdc k) := by
  rw [← BitVec.toNat_inj, toNat_encode_rdc]
  bv_omega

/-- The word of a reserved slot is illegal (R145): no well-formed command has it as its encoding. -/
theorem isLegal_rdcWord_reserved {k : BitVec 4} (hk : 12 < k.toNat) :
    isLegal (0x30000000#32 + k.setWidth 32) = false := by
  rw [rdcWord_eq_encode, illegalWordsExactly, toNat_encode_rdc]
  omega

/-- Settles O8: up to index 12 the slot holds a word, which is the answer; past it there is none, so the model raises
the exception. -/
theorem rdcReturnsItsConstant : Obligations.RdcReturnsItsConstant := by
  refine fun k s => ⟨fun hk => ⟨?_, ?_⟩, fun hk => ⟨isLegal_rdcWord_reserved hk, ?_⟩⟩
  · rw [rdcWord_eq_encode]
    exact decode_encode (by simpa [Instr.wf] using hk)
  · have hdefined : romSlot k ≠ none := mt (romSlot_eq_none_iff k).mp hk.not_gt
    obtain ⟨w, hslot⟩ := Option.ne_none_iff_exists'.mp hdefined
    exact ⟨_, w, hslot, exec_rdc_some s hslot, rfl, ⟨rfl, rfl, rfl, rfl, rfl⟩, ⟨rfl, rfl, rfl⟩, rfl⟩
  · exact exec_rdc_none s ((romSlot_eq_none_iff k).mpr hk)

/-! ### The K-scaled words (R144) -/

/-- The product with K is the eighth, which is a word already and so not rounded. -/
theorem romTable_scaled_eq_fmul (nan : Word) (i : Fin 6) :
    romTable[i.val + 7] = fmul nan romTable[i.val] romTable[6] := by
  obtain ⟨⟨hc, hcs⟩, ⟨hcK, hcKs⟩, hmag⟩ := romTable_scaled i
  have hexact := rne_magUnits hcK
  rw [hcKs] at hexact
  rw [fmul_K hc, hcs, hmag, ← hexact]
  exact rne_congr _ one_pos (by norm_num) (by rw [hexact]; ring)

theorem val_romTable_scaled (i : Fin 6) :
    Reference.val romTable[i.val + 7] = Reference.val romTable[i.val] / 8 := by
  obtain ⟨⟨_, hcs⟩, ⟨_, hcKs⟩, hmag⟩ := romTable_scaled i
  rw [val_eq_valUnits, val_eq_valUnits, valUnits, valUnits, hcs, hcKs, hmag]
  push_cast
  ring

/-- Settles O40: the product and the value by the units of the words, the bit patterns by reading them. -/
theorem scaledRomWordsAreExactEighths : Obligations.ScaledRomWordsAreExactEighths := by
  have hbits : ∀ i : Fin 6, romTable[i.val + 7] = romTable[i.val] - 0x01800000#32 := by decide
  exact fun nan i => ⟨romTable_scaled_eq_fmul nan i, val_romTable_scaled i, hbits i⟩

/-! ### The constants over the reals (R142) -/

/-- A number is within `h` of a square root when the squares `h` below and above it enclose the radicand. -/
theorem abs_sub_sqrt_le {a h y : ℝ} (hah : 0 ≤ a + h) (hlo : (a - h) ^ 2 ≤ y) (hhi : y ≤ (a + h) ^ 2) :
    |a - √y| ≤ h := by
  have hle : √y ≤ a + h := Real.sqrt_le_iff.mpr ⟨hah, hhi⟩
  have hge : a - h ≤ √y := Real.le_sqrt_of_sq_le hlo
  exact abs_sub_le_iff.mpr ⟨by linarith, by linarith⟩

theorem abs_sub_half_sqrt_le {a h y : ℝ} (hah : 0 ≤ a + h) (hlo : (2 * (a - h)) ^ 2 ≤ y)
    (hhi : y ≤ (2 * (a + h)) ^ 2) : |a - √y / 2| ≤ h := by
  have hroot : |2 * a - √y| ≤ 2 * h := abs_sub_sqrt_le (by linarith) (by linarith) (by linarith)
  rw [abs_sub_le_iff] at hroot ⊢
  constructor <;> linarith

/-- The multiple of pi/16 whose cosine each of the first six slots stands for (R142). -/
def romMultiple (i : Fin 6) : ℕ := ![1, 3, 5, 7, 2, 6] i

/-- The cosine of twice that angle, to nine decimals. -/
def doubledCos (i : Fin 6) : ℚ :=
  ![923879533, 382683432, -382683432, -923879533, 707106781, -707106781] i / 10 ^ 9

theorem realRom_eq (i : Fin 6) :
    Reference.realRom[i.val] = √2 * Real.cos (Reference.angle (romMultiple i)) := by
  fin_cases i <;> rfl

theorem sqrt_two_mul_cos_angle {j : ℕ} (hj : j ≤ 8) :
    √2 * Real.cos (Reference.angle j) = √(1 + Real.cos (j * (Real.pi / 8))) := by
  have hj8 : (j : ℝ) ≤ 8 := by exact_mod_cast hj
  have hpi := Real.pi_pos
  have hangle : Reference.angle j = j * (Real.pi / 8) / 2 := by rw [Reference.angle]; ring
  have hlow : -Real.pi ≤ j * (Real.pi / 8) := by linarith [show 0 ≤ j * (Real.pi / 8) by positivity]
  have hhigh : j * (Real.pi / 8) ≤ Real.pi := by nlinarith
  rw [hangle, Real.cos_half hlow hhigh, ← Real.sqrt_mul two_pos.le, mul_div_cancel₀ _ two_ne_zero]

theorem abs_sub_sqrt_two_le : |1.41421356237 - √2| ≤ 1e-11 :=
  abs_sub_sqrt_le (by norm_num) (by norm_num) (by norm_num)

theorem abs_sub_cos_pi_div_four_le : |0.707106781 - Real.cos (Real.pi / 4)| ≤ 1e-9 := by
  rw [Real.cos_pi_div_four]
  exact abs_sub_half_sqrt_le (by norm_num) (by norm_num) (by norm_num)

theorem abs_sub_cos_pi_div_eight_le : |0.923879533 - Real.cos (Real.pi / 8)| ≤ 1e-9 := by
  obtain ⟨hlo, hhi⟩ := abs_sub_le_iff.mp abs_sub_sqrt_two_le
  rw [Real.cos_pi_div_eight]
  exact abs_sub_half_sqrt_le (by norm_num) (by linarith) (by linarith)

theorem abs_sub_sin_pi_div_eight_le : |0.382683432 - Real.sin (Real.pi / 8)| ≤ 1e-9 := by
  obtain ⟨hlo, hhi⟩ := abs_sub_le_iff.mp abs_sub_sqrt_two_le
  rw [Real.sin_pi_div_eight]
  exact abs_sub_half_sqrt_le (by norm_num) (by linarith) (by linarith)

/-- The six cosines by symmetry about pi/2. -/
theorem cos_romMultiple (i : Fin 6) :
    Real.cos (romMultiple i * (Real.pi / 8)) =
      ![Real.cos (Real.pi / 8), Real.sin (Real.pi / 8), -Real.sin (Real.pi / 8), -Real.cos (Real.pi / 8),
        Real.cos (Real.pi / 4), -Real.cos (Real.pi / 4)] i := by
  fin_cases i
  · exact congrArg Real.cos (by norm_num [romMultiple])
  · exact (congrArg Real.cos (by norm_num [romMultiple]; ring)).trans (Real.cos_pi_div_two_sub _)
  · exact (congrArg Real.cos (by norm_num [romMultiple]; ring)).trans (Real.cos_add_pi_div_two _)
  · exact (congrArg Real.cos (by norm_num [romMultiple]; ring)).trans (Real.cos_pi_sub _)
  · exact congrArg Real.cos (by norm_num [romMultiple]; ring)
  · exact (congrArg Real.cos (by norm_num [romMultiple]; ring)).trans (Real.cos_pi_sub _)

theorem abs_doubledCos_sub_cos_le (i : Fin 6) :
    |(doubledCos i : ℝ) - Real.cos (romMultiple i * (Real.pi / 8))| ≤ 1e-9 := by
  have hcos := abs_sub_cos_pi_div_eight_le
  have hsin := abs_sub_sin_pi_div_eight_le
  have hquarter := abs_sub_cos_pi_div_four_le
  rw [cos_romMultiple]
  generalize Real.cos (Real.pi / 8) = c, Real.sin (Real.pi / 8) = s, Real.cos (Real.pi / 4) = q at *
  rw [abs_sub_le_iff] at *
  fin_cases i
  all_goals refine ⟨?_, ?_⟩ <;> norm_num [doubledCos] <;> linarith

/-- The squares of the two ends of each word's rounding interval, half a unit in the last place below and above it,
leave room between them for the approximate radicand `1 + cos 2x` and its error. -/
theorem romTable_encloses_radicand (i : Fin 6) :
    0 ≤ Reference.val romTable[i.val] ∧
    (Reference.val romTable[i.val] - 2 ^ ((expField romTable[i.val] : ℤ) - 151)) ^ 2 ≤ 1 + doubledCos i - 1e-9 ∧
    1 + doubledCos i + 1e-9 ≤ (Reference.val romTable[i.val] + 2 ^ ((expField romTable[i.val] : ℤ) - 151)) ^ 2 := by
  revert i; decide +kernel

/-- Settles O41: each constant is the square root of `1 + cos 2x`, which the squares of the two ends of the word's
rounding interval enclose. -/
theorem romWordsRoundTheirConstants : Obligations.RomWordsRoundTheirConstants := by
  intro i
  have hj : romMultiple i ≤ 8 := by revert i; decide
  obtain ⟨hclo, hchi⟩ := abs_sub_le_iff.mp (abs_doubledCos_sub_cos_le i)
  obtain ⟨hnonneg, hlo, hhi⟩ := romTable_encloses_radicand i
  rw [realRom_eq, sqrt_two_mul_cos_angle hj]
  generalize Reference.val romTable[i.val] = a at *
  generalize (expField romTable[i.val] : ℤ) - 151 = e at *
  rify at hnonneg hlo hhi
  exact abs_sub_sqrt_le (by positivity) (by linarith) (by linarith)

end Sys2Proof.Machine

/-! ## The forward transform (spec/42_forward_1d.md)

Over the reals the butterfly is held to the printed matrix of R148, whose entries are the cosines folded into the
first quarter-turn (`dctMatrix_eq`). In the hardware arithmetic a NaN is followed through the butterfly as a mark on the
words it reaches (`NanIfMarked`), and a constant line by the exact doubling of its word (`exists_double`). -/

namespace Sys2Proof.Machine

open Claims Reference

/-! ### The matrix C (41_basis_rom.md R148) -/

/-- `sqrt(2)*cos(j*pi/16)`: every constant of R142 but K, and every entry of R148 up to its sign. -/
noncomputable def scaledCos (j : ℕ) : ℝ := √2 * Real.cos (angle j)

theorem scaledCos_add_sixteen (j : ℕ) : scaledCos (j + 16) = -scaledCos j := by
  have hangle : angle (j + 16) = angle j + Real.pi := by rw [angle, angle]; push_cast; ring
  rw [scaledCos, scaledCos, hangle, Real.cos_add_pi, mul_neg]

/-- Symmetry about pi/2. It holds below pi/2 too; the lower bound makes it a rewriting rule that ends. -/
theorem scaledCos_reflect {j : ℕ} (_ : 8 < j) (h : j < 16) : scaledCos j = -scaledCos (16 - j) := by
  have hangle : angle j = Real.pi - angle (16 - j) := by
    rw [angle, angle, Nat.cast_sub h.le]; push_cast; ring
  rw [scaledCos, scaledCos, hangle, Real.cos_pi_sub, mul_neg]

theorem scaledCos_four : scaledCos 4 = 1 := by
  have hangle : angle 4 = Real.pi / 4 := by norm_num [angle]; ring
  rw [scaledCos, hangle, Real.cos_pi_div_four, mul_div_assoc', Real.mul_self_sqrt two_pos.le, div_self two_ne_zero]

theorem realRom_eq_scaledCos :
    realRom = #v[scaledCos 1, scaledCos 3, scaledCos 5, scaledCos 7, scaledCos 2, scaledCos 6, 1 / 8,
      scaledCos 1 / 8, scaledCos 3 / 8, scaledCos 5 / 8, scaledCos 7 / 8, scaledCos 2 / 8, scaledCos 6 / 8] := rfl

theorem basis_zero (n : ℕ) : basis 0 n = 1 := if_pos rfl

theorem basis_of_ne_zero {k : ℕ} (hk : k ≠ 0) (n : ℕ) : basis k n = scaledCos ((2 * n + 1) * k) := if_neg hk

/-- The matrix as R148 prints it, in its six constants. -/
def printedMatrix (a1 b1 c1 d1 a2 b2 : ℝ) : Matrix (Fin 8) (Fin 8) ℝ :=
  !![1, 1, 1, 1, 1, 1, 1, 1;
     a1, b1, c1, d1, -d1, -c1, -b1, -a1;
     a2, b2, -b2, -a2, -a2, -b2, b2, a2;
     b1, -d1, -a1, -c1, c1, a1, d1, -b1;
     1, -1, -1, 1, 1, -1, -1, 1;
     c1, -a1, d1, b1, -b1, -d1, a1, -c1;
     b2, -a2, a2, -b2, -b2, a2, -a2, b2;
     d1, -c1, b1, -a1, a1, -b1, c1, -d1]

/-- The cosines of the DCT-II, each folded into the first quarter-turn, are the printed matrix. -/
theorem dctMatrix_eq : dctMatrix =
    printedMatrix (scaledCos 1) (scaledCos 3) (scaledCos 5) (scaledCos 7) (scaledCos 2) (scaledCos 6) := by
  ext k n
  fin_cases k <;> fin_cases n <;>
    simp [dctMatrix, printedMatrix, basis_zero, basis_of_ne_zero, scaledCos_add_sixteen, scaledCos_reflect,
      scaledCos_four]

/-- Settles O16: row by row, the butterfly is the printed row of R148. -/
theorem forwardIsTheDctMatrix : Obligations.ForwardIsTheDctMatrix := by
  intro v k
  change _ = 1 / 8 * ∑ n, dctMatrix k n * v[n]
  rw [dctMatrix_eq, Fin.sum_univ_eight, fwdReal, realRom_eq_scaledCos]
  fin_cases k <;> simp [fwd1dWith, fwdOut, fwdTemps, printedMatrix] <;> ring

/-! ### One line in place (R165, R168) -/

/-- The word of FDCT1, as R88 writes it, is its encoding. -/
theorem fdct1Word_eq_encode (axis : Axis) (n : BitVec 3) :
    0x40000000#32 + 8#32 * axis.code.setWidth 32 + n.setWidth 32 = encode (.fdct1 axis n) := by
  cases axis <;> revert n <;> decide

/-- An index on no position of a line has another line number. -/
theorem lineOf_ne_of_off {axis : Axis} {n : BitVec 3} {i : BitVec 6} (h : ∀ j, i ≠ lineIdx axis n j) :
    lineOf axis i ≠ n := fun hn => h (posOf axis i) ((eq_lineIdx_iff axis n _ i).mpr ⟨hn, rfl⟩)

/-- Lines that hold the same words gather alike, whatever their axes. -/
theorem gather_congr {α : Type} {b b' : Vector α 64} {a a' : Axis} {n n' : BitVec 3}
    (h : ∀ j, readBlk b (lineIdx a n j) = readBlk b' (lineIdx a' n' j)) : gather b a n = gather b' a' n' :=
  line_ext fun j => by simpa using h j

/-- Settles O14: the new line is FWD1D of the gathered one, with the draws of this run as NAN_OUT. -/
theorem fdct1TransformsItsLine : Obligations.Fdct1TransformsItsLine := by
  intro axis n s
  refine ⟨?_, nanDraw s.draws, gather s.blk axis n, _, nanSource_nanDraw _, fun j => elem_gather .., exec_fdct1 ..,
    fun j => ?_, fun i hi => ?_, rfl, ⟨rfl, rfl, rfl, rfl, rfl⟩, rfl, rfl⟩
  · rw [fdct1Word_eq_encode]
    exact decode_encode rfl
  · rw [respond_blk, forwardLine_blk, readBlk_scatter_on]
  · rw [respond_blk, forwardLine_blk, readBlk_scatter_off _ _ _ _ (lineOf_ne_of_off hi)]

/-- Settles O19: each line transform reads the gathered words and the draws, and nothing of the axis or the number. -/
theorem oneDatapathForBothAxes : Obligations.OneDatapathForBothAxes := by
  intro a a' n n' s s' hdraws hline
  have hgather := gather_congr hline
  refine ⟨⟨_, _, exec_fdct1 .., exec_fdct1 .., fun j => ?_⟩,
    ⟨_, _, exec_idct1 .., exec_idct1 .., fun j => ?_⟩⟩
  · simp [hdraws, hgather]
  · simp [hdraws, hgather]

/-! ### The operations of FWD1D (R161 to R163) -/

/-- Settles O12: the butterfly run on eight words, with the words of the ROM read from its table. -/
theorem forwardButterflyFormulas : Obligations.ForwardButterflyFormulas := by
  unfold Obligations.ForwardButterflyFormulas
  intros
  rfl

/-! ### A NaN fills the line (R169, 43_inverse_1d.md R190) -/

/-- A word that is marked is a NaN. The marks follow the data flow: the result of an operation is marked when an
operand is. -/
def NanIfMarked (w : Word) (mark : Bool) : Prop := mark = true → isNaN w = true

/-- The marks of an operation's result. -/
def markOp (_ : Nat) (x y : Bool) : Bool := x || y

/-- The marks of a line with a NaN at position `j`. -/
def markAt (j : BitVec 3) : Vector Bool 8 := Vector.ofFn fun i => i.val == j.toNat

/-- The ROM has no mark. -/
def unmarkedRom : Vector Bool 13 := Vector.replicate 13 false

theorem nanIfMarked_op {op : Word → Word → Word → Word}
    (hop : ∀ {nan x y : Word}, isNaN x = true ∨ isNaN y = true → op nan x y = nan) {nan : Nat → Word}
    (hn : NanSource nan) : OpRel NanIfMarked (fun i => op (nan i)) markOp := by
  intro i x y mx my hx hy hmark
  have hout : op (nan i) x y = nan i := hop (((Bool.or_eq_true mx my).mp hmark).imp hx hy)
  exact (congrArg isNaN hout).trans (hn i)

theorem nanIfMarked_rom (k : Nat) (hk : k < 13) : NanIfMarked romTable[k] unmarkedRom[k] := fun h => by
  simp [unmarkedRom] at h

theorem nanIfMarked_line {v : Vector Word 8} {j : BitVec 3} (h : isNaN (elem v j) = true) :
    LineRel NanIfMarked v (markAt j) := by
  intro i hi
  have hij : i = j := by simpa [elem, markAt, BitVec.toNat_inj] using hi
  rwa [hij]

/-- Each output of FWD1D has every input among its operands. -/
theorem fwd1dWith_markAt (i j : BitVec 3) :
    elem (fwd1dWith markOp markOp markOp unmarkedRom (markAt j)) i = true := by
  revert i j; decide

/-- Each output of INV1D has every input among its operands. -/
theorem inv1dWith_markAt (i j : BitVec 3) :
    elem (inv1dWith markOp markOp markOp id unmarkedRom (markAt j)) i = true := by
  revert i j; decide

/-- Settles O21: the mark of the NaN reaches every output of either transform. -/
theorem oneNanFillsTheLine : Obligations.OneNanFillsTheLine := by
  intro nan v j hn hv
  have hadd := nanIfMarked_op fadd_nan hn
  have hsub := nanIfMarked_op fsub_nan hn
  have hmul := nanIfMarked_op fmul_nan hn
  have hneg (x : Word) (m : Bool) (h : NanIfMarked x m) : NanIfMarked (fneg x) (id m) := by
    simpa [NanIfMarked] using h
  have hline := nanIfMarked_line hv
  exact ⟨fun i => lineRel_fwd1dWith hadd hsub hmul nanIfMarked_rom hline i (fwd1dWith_markAt i j),
    fun i => lineRel_inv1dWith hadd hsub hmul hneg nanIfMarked_rom hline i (inv1dWith_markAt i j)⟩

/-! ### Doubling is exact (R167) -/

/-- The sign of a zero result matters to a zero value alone. -/
theorem rne_zeroSign (s : Bool) {num : ℕ} (den : ℕ) (zs zs' : Bool) (hn : 0 < num) :
    rne s num den zs = rne s num den zs' := by
  rw [rne_eq_roundedWord s den zs hn, rne_eq_roundedWord s den zs' hn]

/-- A finite word plus itself: twice its units, rounded once, with its sign. -/
theorem fadd_self {nan w : Word} (hw : isFinite w = true) :
    fadd nan w w = rne (signBit w) (2 * magUnits w) 1 (signBit w) := by
  have habs := natAbs_valUnits w
  have hsum : (valUnits w + valUnits w).natAbs = 2 * magUnits w := by omega
  rw [fadd_finite hw hw, Bool.and_self, hsum]
  rcases Nat.eq_zero_or_pos (magUnits w) with h0 | hpos
  · rw [if_pos (by omega), h0, mul_zero, rne_zero]
  · have hneg : decide (valUnits w + valUnits w < 0) = signBit w := by
      rw [valUnits]
      cases signBit w
      · simp
      · simp
        omega
    rw [if_neg (by omega), hneg]
    exact rne_zeroSign _ _ _ _ (by omega)

/-- A finite word is a significand of at most 24 bits, scaled. -/
theorem magUnits_eq_mul_two_pow (w : Word) : ∃ m k, m < 2 ^ 24 ∧ magUnits w = m * 2 ^ k := by
  have hf := fracField_lt w
  rw [magUnits]
  split_ifs
  · exact ⟨fracField w, 0, by omega, by simp⟩
  · exact ⟨2 ^ 23 + fracField w, _, by omega, rfl⟩

/-- A number of units with a significand of 24 bits is not rounded. -/
theorem roundedUnits_mul_two_pow {m k : ℕ} (hm : m < 2 ^ 24) : roundedUnits (m * 2 ^ k) 1 = m * 2 ^ k := by
  obtain ⟨h23, hlo, _⟩ := quantumLog_bounds (m * 2 ^ k) one_pos
  rw [roundedUnits, quanta, one_mul]
  generalize quantumLog (m * 2 ^ k) 1 = L at *
  have hquantum : L - 23 ≤ k := by
    rcases h23.eq_or_lt with rfl | h
    · omega
    · have hlt : 2 ^ L < 2 ^ (24 + k) := by
        rw [pow_add]
        exact ((mul_one _).symm.trans_le (hlo h)).trans_lt (Nat.mul_lt_mul_of_pos_right hm (by positivity))
      have hL := (Nat.pow_lt_pow_iff_right one_lt_two).mp hlt
      omega
  obtain ⟨c, hc⟩ := (pow_dvd_pow 2 hquantum).mul_left m
  rw [hc, mul_comm (2 ^ (L - 23)), nearestEven_mul c (by positivity)]

/-- Below OVF a number of units with a significand of 24 bits is some word's, with either sign. -/
theorem rne_mul_two_pow (s : Bool) {m k : ℕ} (hm : m < 2 ^ 24) (h : m * 2 ^ k < 2 ^ 277 - 2 ^ 252) :
    isFinite (rne s (m * 2 ^ k) 1 s) = true ∧ signBit (rne s (m * 2 ^ k) 1 s) = s ∧
      magUnits (rne s (m * 2 ^ k) 1 s) = m * 2 ^ k := by
  rcases Nat.eq_zero_or_pos (m * 2 ^ k) with h0 | hpos
  · obtain ⟨hfin, hsign, hmag, _⟩ := packWord_finite s (e := 0) (f := 0) (by norm_num) (by norm_num)
    rw [h0, rne_zero]
    exact ⟨hfin, hsign, hmag⟩
  · rcases rne_cases s s hpos one_pos with ⟨hover, _⟩ | ⟨_, hfin, hsign, hmag, _⟩
    · omega
    · exact ⟨hfin, hsign, hmag.trans (roundedUnits_mul_two_pow hm)⟩

/-- `d` is the finite word of `n` times the units of `c`, with its sign. -/
structure IsMultiple (n : ℕ) (c d : Word) : Prop where
  finite : isFinite d = true
  sign : signBit d = signBit c
  units : magUnits d = n * magUnits c

/-- Below OVF a word plus itself is its double, whatever NAN_OUT is. -/
theorem exists_double {n : ℕ} {c d : Word} (hd : IsMultiple n c d)
    (h : 2 * n * magUnits c < 2 ^ 277 - 2 ^ 252) :
    ∃ e, IsMultiple (2 * n) c e ∧ ∀ nan, fadd nan d d = e := by
  obtain ⟨hfin, hsign, hmag⟩ := hd
  obtain ⟨m, k, hm, hmk⟩ := magUnits_eq_mul_two_pow d
  have hdouble : 2 * magUnits d = m * 2 ^ (k + 1) := by rw [hmk, pow_succ]; ring
  have hunits : m * 2 ^ (k + 1) = 2 * n * magUnits c := by rw [← hdouble, hmag, mul_assoc]
  obtain ⟨hfin', hsign', hmag'⟩ := rne_mul_two_pow (signBit d) hm (hunits ▸ h)
  exact ⟨_, ⟨hfin', hsign'.trans hsign, hmag'.trans hunits⟩, fun nan => hdouble ▸ fadd_self hfin⟩

/-- Eight times a word, times K, is the word. -/
theorem fmul_K_of_eightfold {nan c d : Word} (hc : isFinite c = true) (hd : IsMultiple 8 c d) :
    fmul nan d romTable[6] = c := by
  obtain ⟨hfin, hsign, hmag⟩ := hd
  calc fmul nan d romTable[6]
      _ = rne (signBit c) (8 * magUnits c) 8 (signBit c) := by rw [fmul_K hfin, hsign, hmag]
      _ = rne (signBit c) (magUnits c) 1 (signBit c) := rne_congr _ (by norm_num) one_pos (by ring)
      _ = c := rne_magUnits hc

/-- A product with +0 is +0 when neither factor is negative. -/
theorem fmul_zero {nan a : Word} (ha : isFinite a = true) (hs : signBit a = false) : fmul nan a 0 = 0 := by
  obtain ⟨hfin, hsign, hmag⟩ : isFinite 0 = true ∧ signBit 0 = false ∧ magUnits 0 = 0 := by decide
  rw [fmul_finite ha hfin, hsign, hmag, hs, mul_zero]
  exact rne_zero ..

theorem fadd_zero_zero (nan : Word) : fadd nan 0 0 = 0 := (fadd_self (by decide)).trans (by decide)

theorem fsub_zero_zero (nan : Word) : fsub nan 0 0 = 0 := fsub_self (by decide)

/-- The range of R167 in units: eight times the word stays below OVF. -/
theorem eightfold_lt_overflow {c : Word} (h : |val c| ≤ maxF / 8) : 8 * magUnits c < 2 ^ 277 - 2 ^ 252 := by
  have hunit : (0 : ℚ) < (2 : ℚ) ^ (-149 : ℤ) := by positivity
  have habs : |val c| = magUnits c * (2 : ℚ) ^ (-149 : ℤ) := by
    rw [val_eq_valUnits, abs_mul, abs_of_pos hunit, ← natAbs_valUnits, Nat.cast_natAbs, Int.cast_abs]
  have hmax : maxF / 8 = (16777215 * 2 ^ 250) * (2 : ℚ) ^ (-149 : ℤ) := by norm_num [maxF]
  rw [habs, hmax, mul_le_mul_iff_left₀ hunit] at h
  have hnat : magUnits c ≤ 16777215 * 2 ^ 250 := by exact_mod_cast h
  omega

/-- Settles O22: the sums are 2c, 4c and 8c exactly, the differences and all their products +0. -/
theorem constantLineKeepsItsDcTerm : Obligations.ConstantLineKeepsItsDcTerm := by
  intro nan c hc hle
  have hlt := eightfold_lt_overflow hle
  obtain ⟨c2, h2, hadd2⟩ := exists_double (n := 1) ⟨hc, rfl, (one_mul _).symm⟩ (by omega)
  obtain ⟨c4, h4, hadd4⟩ := exists_double h2 (by omega)
  obtain ⟨c8, h8, hadd8⟩ := exists_double h4 (by omega)
  have hsub1 (nan : Word) : fsub nan c c = 0 := fsub_self hc
  have hsub2 (nan : Word) : fsub nan c2 c2 = 0 := fsub_self h2.finite
  have hsub4 (nan : Word) : fsub nan c4 c4 = 0 := fsub_self h4.finite
  have hK (nan : Word) : fmul nan c8 0x3E000000 = c := fmul_K_of_eightfold hc h8
  have hK0 (nan : Word) : fmul nan 0 0x3E000000 = 0 := (fmul_comm ..).trans (fmul_zero (by decide) (by decide))
  have hline : Vector.replicate 8 c = #v[c, c, c, c, c, c, c, c] := rfl
  rw [hline, forwardButterflyFormulas]
  simp only [hadd2, hadd4, hadd8, hsub1, hsub2, hsub4, hK, hK0]
  simp (disch := decide) only [fmul_zero, fadd_zero_zero, fsub_zero_zero]

end Sys2Proof.Machine

/-! ## The inverse transform (spec/43_inverse_1d.md)

Over the reals the two line transforms are products with the matrix `C` of R148 and its transpose, so the round trip is
the orthogonality of `C`, which the sum formula for the cosine gives (`scaledCos_mul`). -/

namespace Sys2Proof.Machine

open Claims Reference Matrix

/-! ### The operations of INV1D (R181 to R184) -/

/-- Settles O13: the butterfly run on eight words, with the words of the ROM read from its table. -/
theorem inverseButterflyFormulas : Obligations.InverseButterflyFormulas := by
  unfold Obligations.InverseButterflyFormulas
  intros
  rfl

/-! ### One line in place (R185) -/

/-- The word of IDCT1, as R88 writes it, is its encoding. -/
theorem idct1Word_eq_encode (axis : Axis) (n : BitVec 3) :
    0x50000000#32 + 8#32 * axis.code.setWidth 32 + n.setWidth 32 = encode (.idct1 axis n) := by
  cases axis <;> revert n <;> decide

/-- Settles O15: the new line is INV1D of the gathered one, with the draws of this run as NAN_OUT. -/
theorem idct1TransformsItsLine : Obligations.Idct1TransformsItsLine := by
  intro axis n s
  refine ⟨?_, nanDraw s.draws, gather s.blk axis n, _, nanSource_nanDraw _, fun j => elem_gather .., exec_idct1 ..,
    fun j => ?_, fun i hi => ?_, rfl, ⟨rfl, rfl, rfl, rfl, rfl⟩, rfl, rfl⟩
  · rw [idct1Word_eq_encode]
    exact decode_encode rfl
  · rw [respond_blk, inverseLine_blk, readBlk_scatter_on]
  · rw [respond_blk, inverseLine_blk, readBlk_scatter_off _ _ _ _ (lineOf_ne_of_off hi)]

/-! ### The transposed matrix (R186) -/

/-- Settles O17: position by position, the butterfly is the printed column of R148. -/
theorem inverseIsTheTransposedMatrix : Obligations.InverseIsTheTransposedMatrix := by
  intro X n
  change _ = ∑ k, dctMatrix k n * X[k]
  rw [dctMatrix_eq, Fin.sum_univ_eight, invReal, realRom_eq_scaledCos]
  fin_cases n <;> simp [inv1dWith, invOut, invTemps, printedMatrix] <;> ring

/-! ### The matrix C is orthogonal but for its scale (R148, R187) -/

/-- The sum formula, for the scaled cosines: a product is the sum of two, over `sqrt(2)`. -/
theorem scaledCos_mul {i j : ℕ} (h : i ≤ j) :
    scaledCos j * scaledCos i = (scaledCos (j - i) + scaledCos (j + i)) / √2 := by
  have hsub : angle (j - i) = angle j - angle i := by rw [angle, angle, angle, Nat.cast_sub h]; ring
  have hadd : angle (j + i) = angle j + angle i := by rw [angle, angle, angle]; push_cast; ring
  have hsqrt : √2 * √2 = (2 : ℝ) := Real.mul_self_sqrt zero_le_two
  rw [scaledCos, scaledCos, scaledCos, scaledCos, hsub, hadd, Real.cos_sub, Real.cos_add,
    eq_div_iff (by positivity)]
  linear_combination √2 * Real.cos (angle j) * Real.cos (angle i) * hsqrt

theorem scaledCos_zero : scaledCos 0 = √2 := by simp [scaledCos, angle]

/-- The product of two different rows of R148 with odd `k` is twice this sum up to its sign, or cancels term by term. -/
theorem scaledCos_odd_cross :
    scaledCos 3 * scaledCos 1 - scaledCos 7 * scaledCos 3 - scaledCos 5 * scaledCos 1
      - scaledCos 7 * scaledCos 5 = 0 := by
  simp (disch := omega) only [scaledCos_mul]
  norm_num [scaledCos_reflect]
  ring

theorem scaledCos_odd_squares :
    scaledCos 1 * scaledCos 1 + scaledCos 3 * scaledCos 3 + scaledCos 5 * scaledCos 5
      + scaledCos 7 * scaledCos 7 = 4 := by
  simp (disch := omega) only [scaledCos_mul]
  norm_num [scaledCos_reflect, scaledCos_zero]
  field_simp
  ring

theorem scaledCos_even_squares : scaledCos 2 * scaledCos 2 + scaledCos 6 * scaledCos 6 = 2 := by
  simp (disch := omega) only [scaledCos_mul]
  norm_num [scaledCos_reflect, scaledCos_zero]
  field_simp
  ring

/-- The rows of the printed matrix are orthogonal, each of squared length 8, by three equations of its constants. -/
theorem printedMatrix_mul_transpose {a1 b1 c1 d1 a2 b2 : ℝ}
    (hcross : b1 * a1 - d1 * b1 - c1 * a1 - d1 * c1 = 0)
    (hodd : a1 * a1 + b1 * b1 + c1 * c1 + d1 * d1 = 4) (heven : a2 * a2 + b2 * b2 = 2) :
    printedMatrix a1 b1 c1 d1 a2 b2 * (printedMatrix a1 b1 c1 d1 a2 b2)ᵀ = (8 : ℝ) • 1 := by
  ext k l
  rw [mul_apply, Fin.sum_univ_eight]
  fin_cases k
  all_goals
    simp only [printedMatrix, transpose_apply, of_apply, cons_val', cons_val_fin_one, cons_val, Fin.isValue]
    fin_cases l <;> simp [one_apply] <;> linarith

theorem dctMatrix_mul_transpose : dctMatrix * dctMatrixᵀ = (8 : ℝ) • 1 := by
  rw [dctMatrix_eq]
  exact printedMatrix_mul_transpose scaledCos_odd_cross scaledCos_odd_squares scaledCos_even_squares

/-- A right inverse of a square matrix is a left inverse, so the columns are orthogonal as the rows are. -/
theorem transpose_mul_dctMatrix : dctMatrixᵀ * dctMatrix = (8 : ℝ) • 1 := by
  have hinv : ((1 / 8 : ℝ) • dctMatrixᵀ) * dctMatrix = 1 := by
    rw [mul_eq_one_comm, mul_smul_comm, dctMatrix_mul_transpose, smul_smul]
    norm_num
  rw [← hinv, smul_mul_assoc, smul_smul]
  norm_num

/-! ### The round trip (R187) -/

theorem get_fwdReal (v : Vector ℝ 8) : (fwdReal v).get = (1 / 8 : ℝ) • dctMatrix *ᵥ v.get :=
  funext (forwardIsTheDctMatrix v)

theorem get_invReal (X : Vector ℝ 8) : (invReal X).get = dctMatrixᵀ *ᵥ X.get :=
  funext (inverseIsTheTransposedMatrix X)

theorem line_ext_get {α : Type} {v w : Vector α 8} (h : v.get = w.get) : v = w :=
  Vector.ext fun i hi => congrFun h ⟨i, hi⟩

/-- Settles O18: the matrices of the two line transforms are each other's inverse. -/
theorem realRoundTripIsExact : Obligations.RealRoundTripIsExact := by
  refine fun v => ⟨line_ext_get ?_, line_ext_get ?_⟩
  · rw [get_invReal, get_fwdReal, mulVec_smul, mulVec_mulVec, transpose_mul_dctMatrix, smul_mulVec, one_mulVec,
      smul_smul]
    norm_num
  · rw [get_fwdReal, get_invReal, mulVec_mulVec, dctMatrix_mul_transpose, smul_mulVec, one_mulVec, smul_smul]
    norm_num

end Sys2Proof.Machine

/-! ## The 2D transforms (spec/44_transform_2d.md)

A 2D command is two passes on crossing axes (`readBlk_runSequencer`): a line of the second pass takes one element of
each transformed line of the first (`elem_gather_passBlk`). Each statement about a 2D command is then a statement about
its lines; over the reals it is one about the rows and columns of a matrix. -/

namespace Sys2Proof.Machine

open Claims Reference Matrix

/-! ### The lines of one pass (R203) -/

/-- Settles O20: neither line reads or writes an element of the other. -/
theorem linesOfOnePassCommute : Obligations.LinesOfOnePassCommute := by
  intro f g axis n m b hnm
  change transformLine f axis n (transformLine g axis m b) = transformLine g axis m (transformLine f axis n b)
  refine blk_ext fun i => ?_
  simp only [readBlk_transformLine, gather_transformLine_other _ axis b hnm,
    gather_transformLine_other _ axis b hnm.symm]
  by_cases hn : lineOf axis i = n
  · simp [hn, hnm]
  · simp [hn]

/-! ### The two passes -/

theorem lineOf_lineIdx_of_ne {a a' : Axis} (h : a ≠ a') (n j : BitVec 3) : lineOf a (lineIdx a' n j) = j := by
  revert h n j
  cases a <;> cases a' <;> decide

theorem posOf_lineIdx_of_ne {a a' : Axis} (h : a ≠ a') (n j : BitVec 3) : posOf a (lineIdx a' n j) = n := by
  revert h n j
  cases a <;> cases a' <;> decide

theorem readBlk_passBlk_lineIdx {α : Type} (f : BitVec 3 → Vector α 8 → Vector α 8) (axis : Axis) (b : Vector α 64)
    (n j : BitVec 3) : readBlk (passBlk f axis b) (lineIdx axis n j) = elem (f n (gather b axis n)) j := by
  rw [readBlk_passBlk, lineOf_lineIdx, posOf_lineIdx]

/-- After a pass, position `j` of a line `n` of the other axis is position `n` of the transformed line `j`. -/
theorem elem_gather_passBlk {α : Type} {a a' : Axis} (h : a ≠ a') (f : BitVec 3 → Vector α 8 → Vector α 8)
    (b : Vector α 64) (n j : BitVec 3) :
    elem (gather (passBlk f a b) a' n) j = elem (f j (gather b a j)) n := by
  rw [elem_gather, readBlk_passBlk, lineOf_lineIdx_of_ne h, posOf_lineIdx_of_ne h]

theorem seqAxis_ne (kind : SeqKind) : seqAxis kind 0 ≠ seqAxis kind 8 := by
  cases kind <;> decide

/-- The draws of step `t` of a 2D command (log 5). -/
def seqNan (kind : SeqKind) (s : State) (t : BitVec 4) : Nat → Word := nanDraw (s.draws + seqOps kind * t.toNat)

theorem nanSource_seqNan {kind : SeqKind} {s : State} {t : BitVec 4} : NanSource (seqNan kind s t) :=
  nanSource_nanDraw _

/-- Line `n` of the second axis after the first pass of a 2D command. -/
def secondPassLine (kind : SeqKind) (s : State) (n : BitVec 3) : Vector Word 8 :=
  gather (passBlk (fun n => seqLine1d kind (seqNan kind s (0#1 ++ n))) (seqAxis kind 0) s.blk) (seqAxis kind 8) n

theorem elem_secondPassLine (kind : SeqKind) (s : State) (n j : BitVec 3) :
    elem (secondPassLine kind s n) j =
      elem (seqLine1d kind (seqNan kind s (0#1 ++ j)) (gather s.blk (seqAxis kind 0) j)) n :=
  elem_gather_passBlk (seqAxis_ne kind) ..

/-- What a 2D command leaves at an index, by the lines that the second pass transforms (R200, R201). -/
theorem readBlk_runSequencer (kind : SeqKind) (s : State) (i : BitVec 6) :
    readBlk (runSequencer kind s).blk i =
      elem (seqLine1d kind (seqNan kind s (1#1 ++ lineOf (seqAxis kind 8) i))
        (secondPassLine kind s (lineOf (seqAxis kind 8) i))) (posOf (seqAxis kind 8) i) := by
  rw [runSequencer_blk, transformBlk, readBlk_passBlk]
  rfl

/-! ### A NaN fills the block (R209) -/

theorem allNaN_seqLine1d (kind : SeqKind) {nan : Nat → Word} {v : Vector Word 8} {j : BitVec 3} (hn : NanSource nan)
    (hv : isNaN (elem v j) = true) : AllNaN (seqLine1d kind nan v) := by
  obtain ⟨hfwd, hinv⟩ := oneNanFillsTheLine nan v j hn hv
  cases kind with
  | fwd2 => exact hfwd
  | inv2 => exact hinv

/-- The first pass spreads the NaN over its line, which meets every line of the second pass. -/
theorem isNaN_runSequencer (kind : SeqKind) {s : State} {k : BitVec 6} (hk : isNaN (readBlk s.blk k) = true)
    (i : BitVec 6) : isNaN (readBlk (runSequencer kind s).blk i) = true := by
  have hline : isNaN (elem (gather s.blk (seqAxis kind 0) (lineOf (seqAxis kind 0) k)) (posOf (seqAxis kind 0) k)) =
      true := by
    rwa [elem_gather, lineIdx_lineOf_posOf]
  have hsecond (n : BitVec 3) : isNaN (elem (secondPassLine kind s n) (lineOf (seqAxis kind 0) k)) = true := by
    rw [elem_secondPassLine]
    exact allNaN_seqLine1d kind nanSource_seqNan hline n
  rw [readBlk_runSequencer]
  exact allNaN_seqLine1d kind nanSource_seqNan (hsecond _) _

/-- Settles O27: `isNaN_runSequencer` for the two kinds of 2D command. -/
theorem oneNanFillsTheBlock : Obligations.OneNanFillsTheBlock := fun s _ hk =>
  ⟨⟨_, exec_fdct2 s, isNaN_runSequencer .fwd2 hk⟩, ⟨_, exec_idct2 s, isNaN_runSequencer .inv2 hk⟩⟩

/-! ### The constant block (R206) -/

theorem elem_dcLine (c : Word) (j : BitVec 3) : elem #v[c, 0, 0, 0, 0, 0, 0, 0] j = if j = 0 then c else 0 := by
  rcases position_cases j with rfl | rfl | rfl | rfl | rfl | rfl | rfl | rfl <;> rfl

/-- FWD1D of a constant line at a position (R167). -/
theorem elem_fwd1d_const {nan : Nat → Word} {c : Word} {v : Vector Word 8} (hc : isFinite c = true)
    (hle : |val c| ≤ maxF / 8) (hv : ∀ j, elem v j = c) (j : BitVec 3) :
    elem (fwd1d nan v) j = if j = 0 then c else 0 := by
  have hconst : v = Vector.replicate 8 c := line_ext fun j => (hv j).trans (by simp [elem])
  rw [hconst, constantLineKeepsItsDcTerm nan c hc hle, elem_dcLine]

theorem val_zero : val 0 = 0 := by
  have hfields : expField 0 = 0 ∧ fracField 0 = 0 := by decide
  simp only [val, hfields, Nat.cast_zero, zero_mul, mul_zero, if_true]

/-- Pass 1 leaves `c` on C-line 0 and +0 on the other C-lines; each is a constant line of pass 2. -/
theorem readBlk_runSequencer_const {s : State} {c : Word} (hc : isFinite c = true) (hle : |val c| ≤ maxF / 8)
    (hs : ∀ i, readBlk s.blk i = c) (i : BitVec 6) :
    readBlk (runSequencer .fwd2 s).blk i = if i = 0 then c else 0 := by
  have hsecond (n j : BitVec 3) : elem (secondPassLine .fwd2 s n) j = if n = 0 then c else 0 := by
    rw [elem_secondPassLine]
    exact elem_fwd1d_const hc hle (fun j => by rw [elem_gather, hs]) n
  have hcoord : i = 0 ↔ lineOf .cLine i = 0 ∧ posOf .cLine i = 0 := eq_lineIdx_iff .cLine 0 0 i
  have hmax : |val 0| ≤ maxF / 8 := by norm_num [val_zero, maxF]
  rw [readBlk_runSequencer]
  change elem (fwd1d _ (secondPassLine .fwd2 s (lineOf .cLine i))) (posOf .cLine i) = _
  by_cases hn : lineOf .cLine i = 0
  · simp only [hn] at hsecond ⊢
    rw [elem_fwd1d_const hc hle (hsecond 0)]
    simp only [hcoord, hn, true_and]
  · rw [elem_fwd1d_const (c := 0) (by decide) hmax fun j => by rw [hsecond, if_neg hn]]
    simp only [hcoord, hn, false_and, if_false, ite_self]

/-- Settles O25: `readBlk_runSequencer_const` at index 0 and at the others. -/
theorem constantBlockKeepsItsDcTerm : Obligations.ConstantBlockKeepsItsDcTerm := by
  intro s c hc hle hs
  have hblk := readBlk_runSequencer_const hc hle hs
  exact ⟨_, exec_fdct2 s, (hblk 0).trans (if_pos rfl), fun i hi => (hblk i).trans (if_neg hi)⟩

/-! ### The DC term (R201) -/

@[simp] theorem isZero_fneg (x : Word) : isZero (fneg x) = isZero x := by
  obtain ⟨_, hexp, hfrac⟩ := fneg_fields x
  simp [isZero, hexp, hfrac]

theorem isZero_zeroWord (s : Bool) : isZero (zeroWord s) = true := by
  cases s <;> decide

theorem valUnits_eq_zero_iff (w : Word) : valUnits w = 0 ↔ isZero w = true := by
  rw [← magUnits_eq_zero_iff, ← natAbs_valUnits, Int.natAbs_eq_zero]

theorem isZero_fadd {nan x y : Word} (hx : isZero x = true) (hy : isZero y = true) :
    isZero (fadd nan x y) = true := by
  have hsum : valUnits x + valUnits y = 0 := by
    rw [(valUnits_eq_zero_iff x).mpr hx, (valUnits_eq_zero_iff y).mpr hy, add_zero]
  rw [fadd_finite (isFinite_of_isZero hx) (isFinite_of_isZero hy), if_pos hsum]
  exact isZero_zeroWord _

theorem isZero_fsub {nan x y : Word} (hx : isZero x = true) (hy : isZero y = true) :
    isZero (fsub nan x y) = true := by
  rw [fsub_finite (isFinite_of_isZero hy)]
  exact isZero_fadd hx (by rwa [isZero_fneg])

theorem isZero_fmul {nan x y : Word} (hx : isFinite x = true) (hy : isZero y = true) :
    isZero (fmul nan x y) = true := by
  rw [fmul_finite hx (isFinite_of_isZero hy), (magUnits_eq_zero_iff y).mpr hy, mul_zero, rne_zero]
  exact isZero_zeroWord _

/-- A finite non-zero word plus a zero of either sign is the word. -/
theorem fadd_zero_right {nan c z : Word} (hc : isFinite c = true) (hc0 : isZero c = false) (hz : isZero z = true) :
    fadd nan c z = c := by
  have hmag : magUnits c ≠ 0 := fun h => by simp [(magUnits_eq_zero_iff c).mp h] at hc0
  have hval : valUnits c ≠ 0 := by rwa [ne_eq, valUnits_eq_zero_iff, ← magUnits_eq_zero_iff]
  have hsign : decide (valUnits c < 0) = signBit c := by
    rw [valUnits]
    cases signBit c
    · simp
    · simp
      omega
  rw [fadd_finite hc (isFinite_of_isZero hz), (valUnits_eq_zero_iff z).mpr hz, add_zero, if_neg hval, natAbs_valUnits,
    hsign, rne_zeroSign _ _ _ (signBit c) (by omega), rne_magUnits hc]

theorem fsub_zero_right {nan c z : Word} (hc : isFinite c = true) (hc0 : isZero c = false) (hz : isZero z = true) :
    fsub nan c z = c := by
  rw [fsub_finite (isFinite_of_isZero hz), fadd_zero_right hc hc0 (by rwa [isZero_fneg])]

theorem fsub_zero_left {nan c z : Word} (hc : isFinite c = true) (hc0 : isZero c = false) (hz : isZero z = true) :
    fsub nan z c = fneg c := by
  rw [fsub_finite hc, fadd_comm, fadd_zero_right (by rwa [isFinite_fneg]) (by rwa [isZero_fneg]) hz]

theorem isFinite_romTable (k : Nat) (hk : k < 13) : isFinite romTable[k] = true := by
  revert k; decide

/-- What INV1D of a DC line makes of a word: a constant of the ROM, a zero of either sign, the DC term or its negative,
or nothing claimed. The marks follow the data flow. -/
inductive DcMark where
  | const
  | zero
  | dc
  | negDc
  | any

/-- What a mark says of a word, for the DC term `c`. -/
def DcMark.Holds (c w : Word) : DcMark → Prop
  | .const => isFinite w = true
  | .zero => isZero w = true
  | .dc => w = c
  | .negDc => w = fneg c
  | .any => True

/-- The mark of a sum. -/
def DcMark.add (_ : Nat) : DcMark → DcMark → DcMark
  | .zero, .zero => .zero
  | .dc, .zero | .zero, .dc => .dc
  | _, _ => .any

/-- The mark of a difference. -/
def DcMark.sub (_ : Nat) : DcMark → DcMark → DcMark
  | .zero, .zero => .zero
  | .dc, .zero | .zero, .negDc => .dc
  | .zero, .dc => .negDc
  | _, _ => .any

/-- The mark of a product. -/
def DcMark.mul (_ : Nat) : DcMark → DcMark → DcMark
  | .const, .zero => .zero
  | _, _ => .any

/-- The mark of a negated word. -/
def DcMark.neg : DcMark → DcMark
  | .zero => .zero
  | _ => .any

/-- The marks of a DC line. -/
def dcLineMarks : Vector DcMark 8 := #v[.dc, .zero, .zero, .zero, .zero, .zero, .zero, .zero]

/-- The marks of a line of zeros. -/
def zeroLineMarks : Vector DcMark 8 := Vector.replicate 8 .zero

/-- The marks of the ROM. -/
def romMarks : Vector DcMark 13 := Vector.replicate 13 .const

section
variable {c : Word} {nan : Nat → Word}

theorem dcMark_add (hc : isFinite c = true) (hc0 : isZero c = false) :
    OpRel (DcMark.Holds c) (fun i => fadd (nan i)) DcMark.add := by
  intro i x y m n hx hy
  unfold DcMark.add
  split
  · exact isZero_fadd hx hy
  · obtain rfl : x = c := hx
    exact fadd_zero_right hc hc0 hy
  · obtain rfl : y = c := hy
    exact (fadd_comm ..).trans (fadd_zero_right hc hc0 hx)
  · trivial

theorem dcMark_sub (hc : isFinite c = true) (hc0 : isZero c = false) :
    OpRel (DcMark.Holds c) (fun i => fsub (nan i)) DcMark.sub := by
  intro i x y m n hx hy
  unfold DcMark.sub
  split
  · exact isZero_fsub hx hy
  · obtain rfl : x = c := hx
    exact fsub_zero_right hc hc0 hy
  · obtain rfl : y = fneg c := hy
    exact (fsub_zero_left (by rwa [isFinite_fneg]) (by rwa [isZero_fneg]) hx).trans (fneg_fneg c)
  · obtain rfl : y = c := hy
    exact fsub_zero_left hc hc0 hx
  · trivial

theorem dcMark_mul : OpRel (DcMark.Holds c) (fun i => fmul (nan i)) DcMark.mul := by
  intro i x y m n hx hy
  unfold DcMark.mul
  split
  · exact isZero_fmul hx hy
  · trivial

theorem dcMark_neg (x : Word) (m : DcMark) (hx : m.Holds c x) : m.neg.Holds c (fneg x) := by
  unfold DcMark.neg
  split
  · exact (isZero_fneg x).trans hx
  · trivial

theorem dcMark_rom (k : Nat) (hk : k < 13) : DcMark.Holds c romTable[k] romMarks[k] := by
  have hmark : romMarks[k] = .const := Vector.getElem_replicate hk
  rw [hmark]
  exact isFinite_romTable k hk

/-- The marks of INV1D's outputs hold of them. -/
theorem dcMark_inv1d (hc : isFinite c = true) (hc0 : isZero c = false) {X : Vector Word 8} {M : Vector DcMark 8}
    (h : LineRel (DcMark.Holds c) X M) :
    LineRel (DcMark.Holds c) (inv1d nan X)
      (inv1dWith DcMark.add DcMark.sub DcMark.mul DcMark.neg romMarks M) :=
  lineRel_inv1dWith (dcMark_add hc hc0) (dcMark_sub hc hc0) dcMark_mul dcMark_neg dcMark_rom h

theorem inv1dWith_dcLineMarks :
    inv1dWith DcMark.add DcMark.sub DcMark.mul DcMark.neg romMarks dcLineMarks = Vector.replicate 8 .dc := rfl

theorem inv1dWith_zeroLineMarks :
    inv1dWith DcMark.add DcMark.sub DcMark.mul DcMark.neg romMarks zeroLineMarks = zeroLineMarks := rfl

/-- INV1D of a finite non-zero word at position 0 and zeros of either sign elsewhere fills the line with the word. -/
theorem inv1d_dcLine (hc : isFinite c = true) (hc0 : isZero c = false) {X : Vector Word 8} (h0 : elem X 0 = c)
    (hz : ∀ j, j ≠ 0 → isZero (elem X j) = true) (j : BitVec 3) : elem (inv1d nan X) j = c := by
  have hX : LineRel (DcMark.Holds c) X dcLineMarks := by
    intro j
    rcases position_cases j with rfl | rfl | rfl | rfl | rfl | rfl | rfl | rfl
    · exact h0
    all_goals exact hz _ (by decide)
  have h := dcMark_inv1d (nan := nan) hc hc0 hX j
  rw [inv1dWith_dcLineMarks] at h
  simpa [elem, DcMark.Holds] using h

theorem inv1d_zeroLine (hc : isFinite c = true) (hc0 : isZero c = false) {X : Vector Word 8}
    (hX : ∀ j, isZero (elem X j) = true) (j : BitVec 3) : isZero (elem (inv1d nan X) j) = true := by
  have hmark (j : BitVec 3) : elem zeroLineMarks j = .zero := Vector.getElem_replicate j.isLt
  have hrel : LineRel (DcMark.Holds c) X zeroLineMarks := fun j => by rw [hmark]; exact hX j
  have h := dcMark_inv1d (nan := nan) hc hc0 hrel j
  rw [inv1dWith_zeroLineMarks, hmark] at h
  exact h

end

/-- Position `j` of line `n` is index 0 only at position 0 of line 0. -/
theorem lineIdx_ne_zero (axis : Axis) {n j : BitVec 3} (h : n ≠ 0 ∨ j ≠ 0) : lineIdx axis n j ≠ 0 := by
  revert h n j
  cases axis <;> decide

/-- After pass 1 every R-line holds `c` at position 0 and zeros of either sign elsewhere, which pass 2 makes `c`. -/
theorem readBlk_runSequencer_dcTerm {s : State} {c : Word} (hc : isFinite c = true) (hc0 : isZero c = false)
    (h0 : readBlk s.blk 0 = c) (hz : ∀ i, i ≠ 0 → readBlk s.blk i = 0) (i : BitVec 6) :
    readBlk (runSequencer .inv2 s).blk i = c := by
  have hzero (j m : BitVec 3) (h : j ≠ 0 ∨ m ≠ 0) : isZero (elem (gather s.blk .cLine j) m) = true := by
    rw [elem_gather, hz _ (lineIdx_ne_zero .cLine h)]
    decide
  rw [readBlk_runSequencer]
  refine inv1d_dcLine hc hc0 ?_ (fun j hj => ?_) _
  · rw [elem_secondPassLine]
    exact inv1d_dcLine hc hc0 ((elem_gather ..).trans h0) (fun m hm => hzero 0 m (.inr hm)) _
  · rw [elem_secondPassLine]
    exact inv1d_zeroLine hc hc0 (fun m => hzero j m (.inl hj)) _

/-- Settles O26: `readBlk_runSequencer_dcTerm` at every index. -/
theorem dcTermFillsTheBlock : Obligations.DcTermFillsTheBlock := fun s _ hc hc0 h0 hz =>
  ⟨_, exec_idct2 s, readBlk_runSequencer_dcTerm hc hc0 h0 hz⟩

/-! ### Sixteen line commands (R205) -/

/-- The line command of a kind of 2D command. -/
def lineInstr : SeqKind → Axis → BitVec 3 → Instr
  | .fwd2 => .fdct1
  | .inv2 => .idct1

/-- The line command of sequencer step `t`. -/
def stepCmd (kind : SeqKind) (t : Nat) : Cmd :=
  plainCmd (lineInstr kind (seqAxis kind (BitVec.ofNat 4 t)) (seqLine (BitVec.ofNat 4 t)))

/-- The response of a line command. -/
def okZero : Response := { code := .ok, data := 0 }

/-- One line command from acceptance to its response: the line transform of its kind. -/
theorem transaction_lineInstr (kind : SeqKind) (axis : Axis) (n : BitVec 3) (s : State) :
    ∃ t, transaction (plainCmd (lineInstr kind axis n)) s = .next t ∧ t.taken = s.taken ++ [okZero] ∧
      t.draws = s.draws + seqOps kind ∧
      t.blk = transformLine (seqLine1d kind (nanDraw s.draws)) axis n s.blk := by
  have hdecode : decode (plainCmd (lineInstr kind axis n)).word = .ok (lineInstr kind axis n) :=
    decode_encode (by cases kind <;> rfl)
  cases kind with
  | fwd2 => exact ⟨_, transaction_of_accept ((accept_ok s hdecode).trans (exec_fdct1 ..)), rfl, rfl, rfl⟩
  | inv2 => exact ⟨_, transaction_of_accept ((accept_ok s hdecode).trans (exec_idct1 ..)), rfl, rfl, rfl⟩

/-- The line commands of the first `k` sequencer steps: the line transforms of those steps, in order. -/
theorem runProgram_stepCmds (kind : SeqKind) (s : State) (k : Nat) :
    ∃ u, runProgram ((List.range k).map (stepCmd kind)) s = .next u ∧
      u.taken = s.taken ++ List.replicate k okZero ∧ u.draws = s.draws + seqOps kind * k ∧
      u.blk = (List.range k).foldl
        (fun b i => transformLine (seqLine1d kind (nanDraw (s.draws + seqOps kind * i)))
          (seqAxis kind (BitVec.ofNat 4 i)) (seqLine (BitVec.ofNat 4 i)) b) s.blk := by
  induction k with
  | zero => exact ⟨s, rfl, by simp, rfl, rfl⟩
  | succ k ih =>
    obtain ⟨u, hu, htaken, hdraws, hblk⟩ := ih
    obtain ⟨v, hv, htaken', hdraws', hblk'⟩ := transaction_lineInstr kind (seqAxis kind (BitVec.ofNat 4 k))
      (seqLine (BitVec.ofNat 4 k)) u
    refine ⟨v, ?_, ?_, ?_, ?_⟩
    · rw [List.range_succ, List.map_append, runProgram_append _ hu]
      exact runProgram_cons [] hv
    · rw [htaken', htaken, List.append_assoc, List.replicate_succ']
    · rw [hdraws', hdraws, Nat.mul_succ, Nat.add_assoc]
    · rw [hblk', hblk, hdraws, List.range_succ, List.foldl_append]
      rfl

/-- The sixteen line commands leave the block of the sequencer, and sixteen responses. -/
theorem runProgram_sixteen (kind : SeqKind) (s : State) :
    ∃ u, runProgram ((List.range 16).map (stepCmd kind)) s = .next u ∧ (runSequencer kind s).blk = u.blk ∧
      u.taken = s.taken ++ List.replicate 16 okZero := by
  obtain ⟨u, hu, htaken, _, hblk⟩ := runProgram_stepCmds kind s 16
  refine ⟨u, hu, ?_, htaken⟩
  have hseq := seqSteps_blk 16 { s with seq := .run kind 0 } kind 0 rfl (by decide)
  have hzero (i : Nat) : (0 : BitVec 4) + BitVec.ofNat 4 i = BitVec.ofNat 4 i := BitVec.zero_add _
  simp only [hzero] at hseq
  exact hseq.trans hblk.symm

theorem shellKept_runSequencer (kind : SeqKind) (l : Nat) (c : RspCode) (d : Word) (s : State) :
    ShellKept s (respond l c d (runSequencer kind s)) := by
  obtain ⟨hstatus, hcmd, _, htaken, hinputs, hlat⟩ := runSequencer_datapathOnly kind s
  exact ⟨hstatus, hcmd, htaken, hinputs, hlat⟩

theorem expand_fpasses :
    Pseudo.expand (.fpass .rLine) ++ Pseudo.expand (.fpass .cLine) = (List.range 16).map (stepCmd .fwd2) := by
  decide

theorem expand_ipasses :
    Pseudo.expand (.ipass .cLine) ++ Pseudo.expand (.ipass .rLine) = (List.range 16).map (stepCmd .inv2) := by
  decide

/-- Settles O24: the two passes are the line commands of the sixteen sequencer steps, in order. -/
theorem transforms2dAreSixteenLineCommands : Obligations.Transforms2dAreSixteenLineCommands := by
  intro s
  obtain ⟨u, hu, hblk, htaken⟩ := runProgram_sixteen .fwd2 s
  obtain ⟨v, hv, hblk', htaken'⟩ := runProgram_sixteen .inv2 s
  rw [← expand_fpasses] at hu
  rw [← expand_ipasses] at hv
  exact ⟨⟨_, u, exec_fdct2 s, hu, hblk, htaken, respond_port .., shellKept_runSequencer ..,
      (respond_seq ..).trans (runSequencer_seq ..)⟩,
    ⟨_, v, exec_idct2 s, hv, hblk', htaken', respond_port .., shellKept_runSequencer ..,
      (respond_seq ..).trans (runSequencer_seq ..)⟩⟩

/-! ### The passes over the reals (R210) -/

theorem elem_ofFin {α : Type} (v : Vector α 8) (j : Fin 8) : elem v (BitVec.ofFin j) = v.get j := rfl

theorem get_gather_rLine (b : Vector ℝ 64) (c : Fin 8) :
    (gather b .rLine (BitVec.ofFin c)).get = blockMatrix b c :=
  funext fun r => by rw [← elem_ofFin, elem_gather]; rfl

theorem get_gather_cLine (b : Vector ℝ 64) (r : Fin 8) :
    (gather b .cLine (BitVec.ofFin r)).get = (blockMatrix b)ᵀ r :=
  funext fun c => by rw [← elem_ofFin, elem_gather]; rfl

section
variable {f : Vector ℝ 8 → Vector ℝ 8} {A : Matrix (Fin 8) (Fin 8) ℝ}

/-- A pass over the R-lines with a matrix: its transpose on the right. -/
theorem blockMatrix_passBlk_rLine (hf : ∀ v, (f v).get = A *ᵥ v.get) (b : Vector ℝ 64) :
    blockMatrix (passBlk (fun _ => f) .rLine b) = blockMatrix b * Aᵀ := by
  ext c r
  have hline : blockMatrix (passBlk (fun _ => f) .rLine b) c r = (f (gather b .rLine (BitVec.ofFin c))).get r :=
    readBlk_passBlk_lineIdx ..
  rw [hline, hf, get_gather_rLine, mul_apply_eq_vecMul, vecMul_transpose]

/-- A pass over the C-lines with a matrix: the matrix on the left. -/
theorem blockMatrix_passBlk_cLine (hf : ∀ v, (f v).get = A *ᵥ v.get) (b : Vector ℝ 64) :
    blockMatrix (passBlk (fun _ => f) .cLine b) = A * blockMatrix b := by
  ext c r
  have hline : blockMatrix (passBlk (fun _ => f) .cLine b) c r = (f (gather b .cLine (BitVec.ofFin r))).get c :=
    readBlk_passBlk_lineIdx ..
  rw [hline, hf, get_gather_cLine]
  rfl

end

theorem blockMatrix_injective {b b' : Vector ℝ 64} (h : blockMatrix b = blockMatrix b') : b = b' := by
  refine blk_ext fun i => ?_
  have hi : lineIdx .rLine (lineOf .rLine i) (posOf .rLine i) = i := lineIdx_lineOf_posOf .rLine i
  rw [← hi]
  exact congrFun (congrFun h (lineOf .rLine i).toFin) (posOf .rLine i).toFin

theorem blockMatrix_fwdPassReal_rLine (b : Vector ℝ 64) :
    blockMatrix (fwdPassReal .rLine b) = (1 / 8 : ℝ) • (blockMatrix b * dctMatrixᵀ) := by
  have h := blockMatrix_passBlk_rLine (A := (1 / 8 : ℝ) • dctMatrix) (fun v => by rw [get_fwdReal, smul_mulVec]) b
  rwa [transpose_smul, mul_smul_comm] at h

theorem blockMatrix_fwdPassReal_cLine (b : Vector ℝ 64) :
    blockMatrix (fwdPassReal .cLine b) = (1 / 8 : ℝ) • (dctMatrix * blockMatrix b) := by
  have h := blockMatrix_passBlk_cLine (A := (1 / 8 : ℝ) • dctMatrix) (fun v => by rw [get_fwdReal, smul_mulVec]) b
  rwa [smul_mul_assoc] at h

theorem blockMatrix_invPassReal_rLine (b : Vector ℝ 64) :
    blockMatrix (invPassReal .rLine b) = blockMatrix b * dctMatrix :=
  blockMatrix_passBlk_rLine (A := dctMatrixᵀ) get_invReal b

theorem blockMatrix_invPassReal_cLine (b : Vector ℝ 64) :
    blockMatrix (invPassReal .cLine b) = dctMatrixᵀ * blockMatrix b :=
  blockMatrix_passBlk_cLine get_invReal b

theorem fwd2dReal_eq_passes (b : Vector ℝ 64) : fwd2dReal b = fwdPassReal .cLine (fwdPassReal .rLine b) := rfl

theorem inv2dReal_eq_passes (b : Vector ℝ 64) : inv2dReal b = invPassReal .rLine (invPassReal .cLine b) := rfl

theorem blockMatrix_fwd2dReal (b : Vector ℝ 64) :
    blockMatrix (fwd2dReal b) = (1 / 64 : ℝ) • (dctMatrix * blockMatrix b * dctMatrixᵀ) := by
  rw [fwd2dReal_eq_passes, blockMatrix_fwdPassReal_cLine, blockMatrix_fwdPassReal_rLine, mul_smul_comm, smul_smul,
    ← Matrix.mul_assoc]
  norm_num

theorem blockMatrix_inv2dReal (b : Vector ℝ 64) :
    blockMatrix (inv2dReal b) = dctMatrixᵀ * blockMatrix b * dctMatrix := by
  rw [inv2dReal_eq_passes, blockMatrix_invPassReal_rLine, blockMatrix_invPassReal_cLine]

/-- The double sum of R210. -/
theorem blockMatrix_fwd2dReal_apply (b : Vector ℝ 64) (l k : Fin 8) :
    blockMatrix (fwd2dReal b) l k =
      1 / 64 * ∑ c : Fin 8, ∑ r : Fin 8, dctMatrix l c * dctMatrix k r * blockMatrix b c r := by
  rw [blockMatrix_fwd2dReal, Matrix.smul_apply, smul_eq_mul, Matrix.mul_assoc, mul_apply]
  simp only [mul_apply, transpose_apply, Finset.mul_sum]
  refine Finset.sum_congr rfl fun c _ => Finset.sum_congr rfl fun r _ => ?_
  ring

/-- The orthogonality of `C` on both sides: the factors 8 of the two axes cancel the 1/64. -/
theorem inv2dReal_fwd2dReal (b : Vector ℝ 64) : inv2dReal (fwd2dReal b) = b := by
  refine blockMatrix_injective ?_
  calc blockMatrix (inv2dReal (fwd2dReal b))
      _ = (1 / 64 : ℝ) • ((dctMatrixᵀ * dctMatrix) * blockMatrix b * (dctMatrixᵀ * dctMatrix)) := by
        rw [blockMatrix_inv2dReal, blockMatrix_fwd2dReal]
        simp only [mul_smul_comm, smul_mul_assoc, Matrix.mul_assoc]
      _ = blockMatrix b := by
        rw [transpose_mul_dctMatrix, smul_mul_assoc, one_mul, mul_smul_comm, mul_one, smul_smul, smul_smul]
        norm_num

theorem fwdPassReal_comm (b : Vector ℝ 64) :
    fwdPassReal .rLine (fwdPassReal .cLine b) = fwdPassReal .cLine (fwdPassReal .rLine b) := by
  refine blockMatrix_injective ?_
  rw [blockMatrix_fwdPassReal_rLine, blockMatrix_fwdPassReal_cLine, blockMatrix_fwdPassReal_cLine,
    blockMatrix_fwdPassReal_rLine, smul_mul_assoc, mul_smul_comm, Matrix.mul_assoc]

theorem invPassReal_comm (b : Vector ℝ 64) :
    invPassReal .rLine (invPassReal .cLine b) = invPassReal .cLine (invPassReal .rLine b) := by
  refine blockMatrix_injective ?_
  rw [blockMatrix_invPassReal_rLine, blockMatrix_invPassReal_cLine, blockMatrix_invPassReal_cLine,
    blockMatrix_invPassReal_rLine, Matrix.mul_assoc]

/-- Settles O60: each pass is a matrix factor on its own side, so passes compose and commute as the factors do. -/
theorem realTransform2dIsTheMatrixForm : Obligations.RealTransform2dIsTheMatrixForm :=
  ⟨transpose_mul_dctMatrix, dctMatrix_mul_transpose, fun b =>
    ⟨fwd2dReal_eq_passes b, blockMatrix_fwdPassReal_rLine b, blockMatrix_fwdPassReal_cLine b, blockMatrix_fwd2dReal b,
      blockMatrix_fwd2dReal_apply b, inv2dReal_eq_passes b, blockMatrix_invPassReal_cLine b,
      blockMatrix_invPassReal_rLine b, blockMatrix_inv2dReal b, inv2dReal_fwd2dReal b, fwdPassReal_comm b,
      invPassReal_comm b⟩⟩

end Sys2Proof.Machine

/-! ## The block and system commands (spec/45_block_access_and_system.md)

Each of WRB, RDB, RDST and NOP is its `exec_` equation; LDBLK and RDBLK are one induction each over the list of
indices, with the single WRB or RDB as the step. -/

namespace Sys2Proof.Machine

open Claims

/-! ### One command (R220 to R223) -/

/-- The word of WRB, as R88 writes it, is its encoding. -/
theorem wrbWord_eq_encode (idx : BitVec 6) : 0x10000000#32 + idx.setWidth 32 = encode (.wrb idx) := by
  rw [← BitVec.toNat_inj, toNat_encode_wrb]
  bv_omega

/-- The word of RDB, as R88 writes it, is its encoding. -/
theorem rdbWord_eq_encode (idx : BitVec 6) : 0x20000000#32 + idx.setWidth 32 = encode (.rdb idx) := by
  rw [← BitVec.toNat_inj, toNat_encode_rdb]
  bv_omega

/-- A response alone keeps everything outside the port. -/
theorem shellKept_respond (l : Nat) (c : RspCode) (d : Word) (s : State) : ShellKept s (respond l c d s) :=
  ⟨rfl, rfl, rfl, rfl, rfl⟩

theorem datapathKept_respond (l : Nat) (c : RspCode) (d : Word) (s : State) : DatapathKept s (respond l c d s) :=
  ⟨rfl, rfl, rfl⟩

/-- Settles O6: the answering state is that of `exec_wrb`, whose block is one `writeBlk`. -/
theorem wrbWritesItsWord : Obligations.WrbWritesItsWord := by
  intro idx s
  refine ⟨?_, _, exec_wrb idx s, readBlk_writeBlk_same .., fun i hi => readBlk_writeBlk_other _ _ hi, respond_port ..,
    ⟨rfl, rfl, rfl, rfl, rfl⟩, rfl, rfl, rfl⟩
  rw [wrbWord_eq_encode]
  exact decode_encode rfl

/-- Settles O7: the answering state is `s` with a response that carries the addressed word. -/
theorem rdbReturnsItsWord : Obligations.RdbReturnsItsWord := by
  intro idx s
  refine ⟨?_, _, exec_rdb idx s, respond_port .., shellKept_respond .., datapathKept_respond .., respond_seq ..⟩
  rw [rdbWord_eq_encode]
  exact decode_encode rfl

/-- Settles O9: the answering state is `s` with a response that carries `statusWord`, which is ILL alone. -/
theorem rdstReportsIll : Obligations.RdstReportsIll :=
  ⟨decode_encode (i := .rdst) rfl, fun s =>
    ⟨_, exec_rdst s, respond_port .., shellKept_respond .., datapathKept_respond .., respond_seq ..⟩⟩

/-- Settles O10: the answering state is `s` with the response. -/
theorem nopOnlyResponds : Obligations.NopOnlyResponds :=
  ⟨decode_encode (i := .nop) rfl, fun s =>
    ⟨_, exec_nop s, respond_port .., shellKept_respond .., datapathKept_respond .., respond_seq ..⟩⟩

/-! ### Whole blocks (R225, 30_encoding.md R89) -/

/-- One WRB from acceptance to its response. -/
theorem transaction_wrbCmd (i : BitVec 6) (w : Word) (s : State) :
    ∃ t, transaction (wrbCmd i w) s = .next t ∧ t.blk = writeBlk s.blk i w ∧ t.status = s.status ∧
      t.taken = s.taken ++ [okZero] :=
  have hdecode : decode (wrbCmd i w).word = .ok (.wrb i) := decode_encode rfl
  ⟨_, transaction_of_accept ((accept_ok s hdecode).trans (exec_wrb ..)), rfl, rfl, rfl⟩

/-- One RDB from acceptance to its response, which carries the addressed word. -/
theorem transaction_rdb (i : BitVec 6) (s : State) :
    ∃ t, transaction (plainCmd (.rdb i)) s = .next t ∧ t.blk = s.blk ∧ t.status = s.status ∧
      t.taken = s.taken ++ [{ code := .ok, data := readBlk s.blk i }] :=
  have hdecode : decode (plainCmd (.rdb i)).word = .ok (.rdb i) := decode_encode rfl
  ⟨_, transaction_of_accept ((accept_ok s hdecode).trans (exec_rdb ..)), rfl, rfl, rfl⟩

/-- Writing `ws` at the indices of a list leaves `ws` there and the old words elsewhere. An index may stand twice: it
is given the same word each time. -/
theorem runProgram_wrbCmds (ws : Vector Word 64) (is : List (BitVec 6)) (s : State) :
    ∃ t, runProgram (is.map fun i => wrbCmd i (readBlk ws i)) s = .next t ∧
      (∀ k, readBlk t.blk k = if k ∈ is then readBlk ws k else readBlk s.blk k) ∧ t.status = s.status ∧
      t.taken = s.taken ++ List.replicate is.length okZero := by
  induction is generalizing s with
  | nil => exact ⟨s, rfl, by simp, rfl, by simp⟩
  | cons i is ih =>
    obtain ⟨u, hu, hblk, hstatus, htaken⟩ := transaction_wrbCmd i (readBlk ws i) s
    obtain ⟨t, ht, hblk', hstatus', htaken'⟩ := ih u
    refine ⟨t, (runProgram_cons _ hu).trans ht, fun k => ?_, hstatus'.trans hstatus, ?_⟩
    · rw [hblk', hblk, readBlk_writeBlk]
      by_cases hk : k = i
      · subst hk; simp
      · simp [hk]
    · rw [htaken', htaken, List.append_assoc, List.length_cons, List.replicate_succ, List.singleton_append]

/-- Reading at the indices of a list records the block's words in the order of the list. -/
theorem runProgram_rdbs (is : List (BitVec 6)) (s : State) :
    ∃ t, runProgram (is.map fun i => plainCmd (.rdb i)) s = .next t ∧ t.blk = s.blk ∧ t.status = s.status ∧
      t.taken = s.taken ++ is.map fun i => { code := .ok, data := readBlk s.blk i } := by
  induction is generalizing s with
  | nil => exact ⟨s, rfl, rfl, rfl, by simp⟩
  | cons i is ih =>
    obtain ⟨u, hu, hblk, hstatus, htaken⟩ := transaction_rdb i s
    obtain ⟨t, ht, hblk', hstatus', htaken'⟩ := ih u
    refine ⟨t, (runProgram_cons _ hu).trans ht, hblk'.trans hblk, hstatus'.trans hstatus, ?_⟩
    rw [htaken', htaken, hblk, List.append_assoc, List.map_cons, List.singleton_append]

theorem mem_allIndices (i : BitVec 6) : i ∈ allIndices :=
  List.mem_map.mpr ⟨i.toNat, List.mem_range.mpr i.isLt, (BitVec.ofNat_toNat 6 i).trans (BitVec.setWidth_eq i)⟩

theorem length_allIndices : allIndices.length = 64 := by simp [allIndices]

/-- Settles O57: every index is written, so the block is `ws`, and the reads record it. -/
theorem loadThenReadBack : Obligations.LoadThenReadBack := by
  intro ws s
  obtain ⟨u, hload, hwords, hstatus, htaken⟩ := runProgram_wrbCmds ws allIndices s
  obtain ⟨t, hread, hblk, hstatus', htaken'⟩ := runProgram_rdbs allIndices u
  have hu : u.blk = ws := blk_ext fun k => (hwords k).trans (if_pos (mem_allIndices k))
  refine ⟨t, (runProgram_append _ hload).trans hread, hblk.trans hu, hstatus'.trans hstatus, ?_⟩
  rw [htaken', htaken, hu, length_allIndices, List.append_assoc]
  rfl

end Sys2Proof.Machine

/-! ## Illegal commands and the core that goes on (spec/60_exceptions.md)

What acceptance answers and that every step completes is said with the port; here stand what IllegalCommand writes, and
that ILL commutes with every command but RDST. -/

namespace Sys2Proof.Machine

open Claims

/-! ### What is answered (R240, R242, R254) -/

/-- Setting ILL leaves the other bits of STATUS as they are (R240). -/
theorem getLsbD_status_setIll (s : State) {b : Nat} (hb : 0 < b) :
    s.setIll.status.getLsbD b = s.status.getLsbD b := by
  have hbit : (1#32).getLsbD b = false := by simp [BitVec.getLsbD_one, hb.ne']
  rw [setIll_status, BitVec.getLsbD_or, hbit, Bool.or_false]

/-- Settles O42: the answering state is `raiseIllegalCommand` of the state with the sampled pair. -/
theorem illegalCommandSetsIllAndAnswers : Obligations.IllegalCommandSetsIllAndAnswers := by
  intro c e s hd
  exact ⟨_, accept_illegal s hd, ill_raiseIllegalCommand _, fun b hb => getLsbD_status_setIll s hb,
    raiseIllegalCommand_port _, ⟨rfl, rfl, rfl⟩, rfl, rfl, rfl, rfl, rfl⟩

/-- Settles O43: acceptance is `exec`, which answers after the latency of the word and keeps STATUS, since a decoded
command is well formed. -/
theorem legalCommandsAnswerOk : Obligations.LegalCommandsAnswerOk := by
  intro c i s hd
  obtain ⟨t, ht⟩ := exec_completes i { s with cmd := c }
  obtain ⟨data, hanswers⟩ := exec_answers hd ht
  obtain ⟨hstatus, _⟩ := exec_answeredOk (wf_of_decode hd) ht
  exact ⟨t, data, (accept_ok s hd).trans ht, hanswers, hstatus⟩

/-- Settles O47: each kind of edge gives a next state. -/
theorem everyStepCompletes : Obligations.EveryStepCompletes := step_completes

/-! ### ILL alters no command (R246) -/

/-- The sequencer neither reads nor writes ILL. -/
theorem runSequencer_setIll (kind : SeqKind) (s : State) :
    runSequencer kind s.setIll = (runSequencer kind s).setIll := by
  obtain ⟨hstatus, hcmd, hport, htaken, hinputs, hlat⟩ := runSequencer_datapathOnly kind s
  calc runSequencer kind s.setIll
      = reshell s.setIll (runSequencer kind s) := runSequencer_reshell kind s.setIll s
    _ = (runSequencer kind s).setIll := by
      simp only [reshell, State.setIll, ← hstatus, ← hcmd, ← hport, ← htaken, ← hinputs, ← hlat]

/-- A command but RDST, the one that reads ILL (R223), does the same with ILL set. The exception
of a reserved ROM slot sets ILL itself: setting it first or last is the same. -/
theorem exec_setIll {i : Instr} {s t : State} (hi : i ≠ .rdst) (h : exec i s = .next t) :
    exec i s.setIll = .next t.setIll := by
  cases i with
  | rdst => exact absurd rfl hi
  | rdc k =>
    cases hk : romSlot k with
    | some w =>
      rw [exec_rdc_some s hk] at h; obtain rfl := next_inj h
      rw [exec_rdc_some _ hk]; rfl
    | none =>
      rw [exec_rdc_none s hk] at h; obtain rfl := next_inj h
      rw [exec_rdc_none _ hk]; rfl
  | fdct2 => obtain rfl := next_inj h; rw [exec_fdct2, runSequencer_setIll]; rfl
  | idct2 => obtain rfl := next_inj h; rw [exec_idct2, runSequencer_setIll]; rfl
  | _ => obtain rfl := next_inj h; rfl

/-- Settles O45: every command completes, and `exec_setIll` says to what with ILL set. -/
theorem illAltersNoCommand : Obligations.IllAltersNoCommand := by
  intro i s hi
  obtain ⟨t, ht⟩ := exec_completes i s
  exact ⟨t, ht, exec_setIll hi ht⟩

end Sys2Proof.Machine

/-! ## Reset (spec/70_reset_and_hazards.md)

What `resetEdge` gives each register is said with the state; here stands what the port then shows the host. -/

namespace Sys2Proof.Machine

/-- An idle port is ready for a command (R53). -/
theorem cmdReady_idle {s : State} (h : s.port = .idle) : s.cmdReady = true := by
  simp [State.cmdReady, h]

theorem presented_idle {s : State} (h : s.port = .idle) : s.presented = none := by
  simp [State.presented, h]

/-- An idle port has no response for the host (R56). -/
theorem rspValid_idle {s : State} (h : s.port = .idle) : s.rspValid = false := by
  simp [State.rspValid, presented_idle h]

/-- With reset asserted the edge depends on neither the port nor a presented command (R270). -/
theorem step_reset {s : State} (hr : s.nextInput.rst = true) : step s = .next (resetEdge s.dropInput) :=
  clockEdge_reset s.dropInput hr

/-- Settles O50: the step is `resetEdge`, which leaves the port idle; the two output signals follow from that. -/
theorem resetWinsOverEverything : Obligations.ResetWinsOverEverything := by
  intro s hr
  have hport : (resetEdge s.dropInput).port = .idle := resetEdge_port _
  exact ⟨_, step_reset hr, resetEdge_status _, resetEdge_seq _, hport, cmdReady_idle hport, rspValid_idle hport,
    resetEdge_taken _, resetEdge_lat _, resetEdge_inputs _⟩

end Sys2Proof.Machine
